-- ==== Sys2Proof/Word.lean ====
section
/-! DEFINITION. The bit-vector types of the spec: every value of the block is unsigned and has a fixed width (R5, R45, R46). -/

namespace Sys2Proof

/-- One fed byte, and each of the registers SID and FC (R26, R13, R14). -/
abbrev Byte := BitVec 8

/-- A CRC value: the register CRC and the 16-bit value CHECK compares it with (R12, R71). -/
abbrev Crc := BitVec 16

/-- One command word on `cmd_i[23:0]` (R45). -/
abbrev CmdWord := BitVec 24

end Sys2Proof
end

