-- ==== Sys2Proof/Config.lean ====
section
/-! DEFINITION. The OPEN parameters of R4 and the free values of R99 and R100: constants with no body, so that no
statement can rest on their value. -/

namespace Sys2Proof

/-- `CMD_CYCLES - 1` for the command accepted at draw `n` (R4, R98, R102: OPEN, at least 1, "may differ from one
command to the next"). Log 9. -/
opaque Config.extraCycles : Nat → Nat

/-- `CMD_CYCLES` for the command accepted at draw `n`: at least 1 (R4). Log 9. -/
def Config.cmdCycles (n : Nat) : Nat := Config.extraCycles n + 1

/-- The two halves of `RESET_KIND` (R4, R94). -/
structure ResetKind where
  synchronous : Bool
  activeHigh : Bool
deriving DecidableEq, Repr, Inhabited

/-- `RESET_KIND` (R4): OPEN. No definition of the model reads it, since "no rule depends on it" (R94). Log 10. -/
opaque Config.resetKind : ResetKind

/-- `N_INST - 1` (R4, R91). Log 11. -/
opaque Config.extraInstances : Nat

/-- `N_INST` (R4): OPEN, at least 1. Log 11. -/
def Config.nInst : Nat := Config.extraInstances + 1

/-- The word accepted at draw `n` when `cmd_i` changed before acceptance (R99: "any 24-bit word"). Log 8. -/
opaque Config.freeWord : Nat → CmdWord

/-- `crc_o` as sampled at draw `n` while it is unspecified (R100: "any value"). Log 6. -/
opaque Config.freeCrcOut : Nat → Crc

/-- `sid_o` as sampled at draw `n` while it is unspecified (R100). Log 6. -/
opaque Config.freeSidOut : Nat → Byte

/-- `fc_o` as sampled at draw `n` while it is unspecified (R100). Log 6. -/
opaque Config.freeFcOut : Nat → Byte

/-- `status_o` as sampled at draw `n` while it is unspecified (R100). Log 6. -/
opaque Config.freeStatusOut : Nat → Byte

end Sys2Proof
end

