-- ==== Sys2Proof/Syntax.lean ====
section
/-! DEFINITION. The commands of the block: one constructor per row of spec/opcode_table.json (R47 to R50). -/

namespace Sys2Proof

/-- A command (30_encoding.md, Opcode map). The words that are no command are not here: the decoder rejects them by
name (`IllegalReason`), and the machine gives them the effect of R81. -/
inductive Instr where
  /-- R57: no operation. -/
  | nop
  /-- R58: start a new CRC. -/
  | init
  /-- R62: fold the byte `b = w[7:0]` into the CRC. -/
  | feed (b : Byte)
  /-- R71: compare the CRC with the trailer, `hi = w[15:8]` the second byte received and `lo = w[7:0]` the first. -/
  | check (hi lo : Byte)
deriving DecidableEq, Repr

end Sys2Proof
end

