-- ==== Sys2Proof/WellFormed.lean ====
section
/-! DEFINITION. Which commands and which command words are well formed (R46 to R51). -/

namespace Sys2Proof

/-- Every operand of a command is exactly as wide as its field (R46: `b`, `hi`, `lo` are 8 bits), and none of their
values is excluded (R49: 256 FEED words, R50: 65536 CHECK words), so every term of `Instr` is well formed. What can be
ill formed is a command WORD: `legalWord` below. -/
def Instr.wellFormed : Instr → Bool
  | .nop => true
  | .init => true
  | .feed _ => true
  | .check _ _ => true

/-- One row of spec/opcode_table.json: a word belongs to the row when its bits under `mask` are `pattern`. -/
structure TableRow where
  mnemonic : String
  pattern : CmdWord
  mask : CmdWord
deriving DecidableEq, Repr

/-- spec/opcode_table.json, row by row (R47 to R50). -/
def opcodeTable : List TableRow :=
  [⟨"NOP", 0x000000#24, 0xFFFFFF#24⟩,
   ⟨"INIT", 0x010000#24, 0xFFFFFF#24⟩,
   ⟨"FEED", 0x020000#24, 0xFFFF00#24⟩,
   ⟨"CHECK", 0x030000#24, 0xFF0000#24⟩]

/-- The word belongs to the row. -/
def TableRow.holds (r : TableRow) (w : CmdWord) : Bool := w &&& r.mask == r.pattern

/-- The word is a legal command word: it belongs to a row of the table (R51: "Every other word is illegal"). -/
def legalWord (w : CmdWord) : Bool := opcodeTable.any (·.holds w)

end Sys2Proof
end

