-- ==== Sys2Proof/Decode.lean ====
section
/-! DEFINITION. Decoding and encoding of command words (R45 to R53), and the stored form of a program (R56). -/

namespace Sys2Proof

/-- `op = w[23:16]` (R45). -/
def opField (w : CmdWord) : Byte := w.extractLsb' 16 8

/-- `imm16 = w[15:0]` (R45). -/
def immField (w : CmdWord) : BitVec 16 := w.extractLsb' 0 16

/-- `hi = w[15:8]` in CHECK, `rsv` in FEED (R46). -/
def hiField (w : CmdWord) : Byte := w.extractLsb' 8 8

/-- `lo = w[7:0]` in CHECK, `b` in FEED (R46). -/
def loField (w : CmdWord) : Byte := w.extractLsb' 0 8

/-- Why a word is no command: one name for each bullet of R51. -/
inductive IllegalReason where
  /-- `op` in 0x04 to 0xFF. -/
  | unusedOp
  /-- `op = 0x00` with `imm16 != 0`. -/
  | nopOperand
  /-- `op = 0x01` with `imm16 != 0`. -/
  | initOperand
  /-- `op = 0x02` with `w[15:8] != 0`. -/
  | feedReserved
deriving DecidableEq, Repr

/-- What a word decodes to (the `Cmd` of R53). -/
inductive Decoded where
  | command (i : Instr)
  | illegal (r : IllegalReason)
deriving DecidableEq, Repr

/-- R53: total on every 24-bit word, and a function of the word alone (R52). -/
def decode (w : CmdWord) : Decoded :=
  if opField w = 0x00#8 then
    if immField w = 0x0000#16 then .command .nop else .illegal .nopOperand
  else if opField w = 0x01#8 then
    if immField w = 0x0000#16 then .command .init else .illegal .initOperand
  else if opField w = 0x02#8 then
    if hiField w = 0x00#8 then .command (.feed (loField w)) else .illegal .feedReserved
  else if opField w = 0x03#8 then
    .command (.check (hiField w) (loField w))
  else .illegal .unusedOp

/-- The word of a command, from the encodings of R47 to R50. -/
def encode : Instr → CmdWord
  | .nop => 0x000000#24
  | .init => 0x010000#24
  | .feed b => 0x02#8 ++ 0x00#8 ++ b
  | .check hi lo => 0x03#8 ++ hi ++ lo

/-- The command of a decoded word, if it is one. -/
def Decoded.command? : Decoded → Option Instr
  | .command i => some i
  | .illegal _ => none

/-- What the decoder reads from a row of spec/opcode_table.json whose bits are `w`: the table numbers its bits as the
24-bit word does (R5, R45), and bits above `nbits` are 0. A row wider than a command word is no command (R45: "There
are no other lengths"). -/
def decodeTableWord (nbits w : Nat) : Option Instr :=
  if nbits ≤ 24 then (decode (BitVec.ofNat 24 (w % 2 ^ nbits))).command? else none

/-- R56: a stored word is three bytes, most significant first. -/
def storeWord (w : CmdWord) : List Byte :=
  [opField w, hiField w, loField w]

/-- R56: a stored program is its words in issue order. -/
def storeProgram (ws : List CmdWord) : List Byte := ws.flatMap storeWord

/-- Reads a stored program back; a length that is no multiple of three is no stored program (R56). -/
def loadProgram : List Byte → Option (List CmdWord)
  | [] => some []
  | a :: b :: c :: rest => (loadProgram rest).map fun ws => (a ++ b ++ c) :: ws
  | _ => none

end Sys2Proof
end

