-- ==== Sys2Proof/Machine/State.lean ====
section
/-! DEFINITION. The state of the block, its port and its host, as plain data, and the state after reset
(10_state.md, 70_reset_and_hazards.md). -/

namespace Sys2Proof.Machine

/-- The block's registers (10_state.md, State summary). STATUS is a view of them (R20), not a register. -/
structure Block where
  /-- R12: the CRC accumulator. -/
  crc : Crc
  /-- R13: the first byte fed since the last INIT or reset. -/
  sid : Byte
  /-- R14: the second byte fed since the last INIT or reset. -/
  fc : Byte
  /-- R15: the saturating count of bytes fed; legal values 0, 1, 2. -/
  cnt : BitVec 2
  /-- R16: a CHECK has executed. -/
  chk : Bool
  /-- R17: a CHECK found a mismatch. -/
  err : Bool
  /-- R18: the recorded error carries a slave id and function code. -/
  einfo : Bool
  /-- R19: an illegal word was presented since reset. -/
  ill : Bool
deriving DecidableEq, Repr

/-- R93: the reset values. -/
def Block.reset : Block where
  crc := 0xFFFF#16
  sid := 0x00#8
  fc := 0x00#8
  cnt := 0#2
  chk := false
  err := false
  einfo := false
  ill := false

/-- The four read-only outputs (R21). -/
structure Outputs where
  crcO : Crc
  sidO : Byte
  fcO : Byte
  statusO : Byte
deriving DecidableEq, Repr

/-- One sample of the outputs; `valid` says whether `cmd_ready_o` was 1 when it was taken (R100). -/
structure Sample where
  valid : Bool
  outputs : Outputs
deriving DecidableEq, Repr

/-- An accepted command that has not completed (R98): its word, and how many clock edges pass before the edge at which
it completes (`CMD_CYCLES - 1` right after acceptance). -/
structure InFlight where
  word : CmdWord
  waits : Nat
deriving DecidableEq, Repr

/-- What the host drives on `cmd_valid_i` and `cmd_i` at a clock edge (R98, R99). -/
inductive Offer where
  /-- `cmd_valid_i = 0`. -/
  | idle
  /-- `cmd_valid_i = 1`, and `cmd_i` is P[pc], held stable since it was presented. -/
  | held
  /-- `cmd_valid_i = 1`, but `cmd_i` changed before acceptance: any word may be the one accepted (R99). -/
  | unstable
deriving DecidableEq, Repr

/-- What can happen at the port (R98, R104). -/
inductive PortEvent where
  /-- A rising edge of `clk_i`. -/
  | edge (offer : Offer)
  /-- `rst_i` is asserted (R94). -/
  | assertReset
  /-- `rst_i` is released (R97). -/
  | releaseReset
  /-- The host reads the outputs (R100). -/
  | sample
deriving DecidableEq, Repr

/-- The error events (R79). -/
inductive ErrorEvent where
  /-- Code 1: `CRC != {hi, lo}` at a CHECK; recorded in ERR and EINFO. -/
  | crcMismatch
  /-- Code 2: a word that decodes to no command; recorded in ILL. -/
  | illegalCommand
deriving DecidableEq, Repr

/-- The code of an event (R79); no register holds it. -/
def ErrorEvent.code : ErrorEvent → Nat
  | .crcMismatch => 1
  | .illegalCommand => 2

/-- The whole machine: the block, its port, and the host that drives it (R8, R11). -/
structure State where
  /-- The block's registers. -/
  block : Block
  /-- The command in progress (R98); none when the block is idle. -/
  inFlight : Option InFlight
  /-- `rst_i` is asserted (R94). -/
  rst : Bool
  /-- The host program P (R11). -/
  program : List CmdWord
  /-- The host index `pc` into P (R11): host state, which reset does not affect. -/
  pc : Nat
  /-- The port activity still to come, first event first; empty: the host presents its commands one after another.
  The model's own field: log 1. -/
  inputs : List PortEvent
  /-- Every sample the host took, oldest first (R103). -/
  samples : List Sample
  /-- How many free values have been drawn. The model's own field: log 12. -/
  draws : Nat
deriving DecidableEq, Repr

/-- Right after reset (R93, R97 step 1): the block at its reset values, idle, reset released, and a host with nothing
issued (R11: "`pc` starts at 0"). The host's program is loaded from outside: log 2. -/
def State.reset : State where
  block := Block.reset
  inFlight := none
  rst := false
  program := []
  pc := 0
  inputs := []
  samples := []
  draws := 0

/-- The fault reasons (D33: "a closed list of fault reasons"). -/
inductive Fault where
  /-- R81: ILLEGAL_COMMAND, "a fault of the run". No step stops with it, because the block accepts the word, writes
  ILL and goes on (R81, R105); `runVerdict` in Safety.lean raises it for a run that ends with ILL = 1. Safe: a verdict
  withheld proves nothing false. -/
  | illegalCommand
deriving DecidableEq, Repr

/-- The reasons the model gives an action no meaning. -/
inductive Refusal where
  /-- An instruction that has no meaning in the model; raised only by an arm of `exec`. Safe. No arm raises it now. -/
  | notModelled (mnemonic : String)
  /-- R44 and 93_implementation_defined.md: a command of one frame on an instance that another frame owns; raised by
  `Platform.issue` only. Safe: the hardware would run the command. -/
  | interleavedFrames
  /-- R91: an instance number outside the platform; raised by `Platform.issue` and `Platform.idleEdge` only. Safe. -/
  | noSuchInstance
deriving DecidableEq, Repr

end Sys2Proof.Machine
end

