-- ==== Sys2Proof/Machine/Operands.lean ====
section
/-! DEFINITION. The operand forms (R6, R46) and the byte order of the trailer (R28, R70). -/

namespace Sys2Proof.Machine

/-- `zext_16(b)` (R6). -/
def zext16 (b : Byte) : Crc := b.setWidth 16

/-- CHECK's operand `{hi, lo}` (R46, R71): the trailer whose first byte received is `lo` and second is `hi` (R28). -/
def trailerValue (hi lo : Byte) : Crc := hi ++ lo

/-- The first trailer byte on the wire, `c[7:0]` (R28, R70). -/
def crcLow (c : Crc) : Byte := c.extractLsb' 0 8

/-- The second trailer byte on the wire, `c[15:8]` (R28, R70). -/
def crcHigh (c : Crc) : Byte := c.extractLsb' 8 8

/-- The trailer of a CRC value, in wire order (R28, R70). -/
def trailerBytes (c : Crc) : List Byte := [crcLow c, crcHigh c]

end Sys2Proof.Machine
end

