-- ==== Sys2Proof/Machine/Flags.lean ====
section
/-! DEFINITION. The flag and counter computations, the STATUS view and the outputs (R15, R18, R20, R21, R71). -/

namespace Sys2Proof.Machine

/-- `min(CNT + 1, 2)` (R15, R62). The sum is the exact number, so 3, which R15 says is never reached, gives 2: log 4. -/
def nextCnt (cnt : BitVec 2) : BitVec 2 := BitVec.ofNat 2 (min (cnt.toNat + 1) 2)

/-- The comparison of CHECK (R71): the CRC differs from the expected value. -/
def crcDiffers (crc v : Crc) : Bool := crc != v

/-- `CNT = 2`: a slave id and a function code have been fed (R18, R73). -/
def infoAvailable (cnt : BitVec 2) : Bool := cnt == 2#2

/-- STATUS (R20): `{0b00, CNT[1:0], ILL, EINFO, ERR, CHK}`. -/
def Block.status (k : Block) : Byte :=
  0#2 ++ k.cnt ++ BitVec.ofBool k.ill ++ BitVec.ofBool k.einfo ++ BitVec.ofBool k.err ++ BitVec.ofBool k.chk

/-- The outputs as continuous views of the registers (R21). CRC is read out as it stands (R64). -/
def Block.outputs (k : Block) : Outputs where
  crcO := k.crc
  sidO := k.sid
  fcO := k.fc
  statusO := k.status

/-- An event is pending when its STATUS bit is 1 (R83). -/
def Block.pending (k : Block) : ErrorEvent → Bool
  | .crcMismatch => k.err
  | .illegalCommand => k.ill

end Sys2Proof.Machine
end

