-- ==== Sys2Proof/Machine/Ops.lean ====
section
/-! DEFINITION. The named operations over the registers: the CRC update (R61, R63), the register updates of the
commands, and `raise`, the one way an error event is recorded (R6, R79 to R87). -/

namespace Sys2Proof.Machine

/-- `POLY_R` (R4): the reflected polynomial constant. -/
def polyR : Crc := 0xA001#16

/-- `INIT_V` (R4). -/
def initV : Crc := 0xFFFF#16

/-- One of the eight iterations of R61: shift right, and XOR the constant in when the bit shifted out is 1. -/
def crcShift (c : Crc) : Crc :=
  if c.getLsbD 0 then (c >>> 1) ^^^ polyR else c >>> 1

/-- `crc_update(c, b)` (R61). -/
def crcUpdate (c : Crc) (b : Byte) : Crc := Nat.repeat crcShift 8 (c ^^^ zext16 b)

/-- The fold of `crc_update` over bytes, in order, from `c`. -/
def crcFold (c : Crc) (bs : List Byte) : Crc := bs.foldl crcUpdate c

/-- `compute` (R63). -/
def compute (bs : List Byte) : Crc := crcFold initV bs

/-- The writes of INIT (R58): ILL is kept. -/
def Block.startFrame (k : Block) : Block :=
  { k with crc := initV, sid := 0x00#8, fc := 0x00#8, cnt := 0#2, chk := false, err := false, einfo := false }

/-- The CRC write of FEED (R62). -/
def Block.foldByte (b : Byte) (k : Block) : Block := { k with crc := crcUpdate k.crc b }

/-- The SID, FC and CNT writes of FEED (R62), each from CNT as it stood before the command (R6). -/
def Block.latchByte (b : Byte) (k : Block) : Block :=
  { k with
    sid := if k.cnt = 0#2 then b else k.sid
    fc := if k.cnt = 1#2 then b else k.fc
    cnt := nextCnt k.cnt }

/-- The write `CHK <- 1` of CHECK (R71). -/
def Block.noteCheck (k : Block) : Block := { k with chk := true }

/-- `raise <Event>` (R6): records the event in STATUS. It saves no state, changes no mode and transfers no control
(R85); a repeated event leaves its record as it was, and either event leaves the other's record (R87). -/
def Block.raise (e : ErrorEvent) (k : Block) : Block :=
  match e with
  | .crcMismatch => { k with einfo := if k.err then k.einfo else infoAvailable k.cnt, err := true }
  | .illegalCommand => { k with ill := true }

/-- Applies a change of the block's registers; the port and the host are left alone. -/
def State.onBlock (f : Block → Block) (s : State) : State := { s with block := f s.block }

end Sys2Proof.Machine
end

