-- ==== Sys2Proof/Machine/Compute.lean ====
section
/-! DEFINITION. The data command (41_compute.md): FEED. -/

namespace Sys2Proof.Machine

/-- R62: fold `b` into CRC, latch it as SID or FC when it is the first or second byte, count it. -/
def execFeed (b : Byte) (s : State) : Host.Outcome State Fault Refusal :=
  .next (s.onBlock fun k => (k.latchByte b).foldByte b)

end Sys2Proof.Machine
end

