-- ==== Sys2Proof/Machine/Control.lean ====
section
/-! DEFINITION. The control commands (40_control.md): NOP and INIT. -/

namespace Sys2Proof.Machine

/-- R57: no state element is written. -/
def execNop (s : State) : Host.Outcome State Fault Refusal := .next s

/-- R58: CRC <- 0xFFFF, every other register but ILL <- 0. -/
def execInit (s : State) : Host.Outcome State Fault Refusal := .next (s.onBlock Block.startFrame)

end Sys2Proof.Machine
end

