-- ==== Sys2Proof/Machine/Verify.lean ====
section
/-! DEFINITION. The verification command (42_verify.md): CHECK, and the error report. -/

namespace Sys2Proof.Machine

/-- R71: CHK <- 1, and CRC_MISMATCH is raised when the CRC differs from `{hi, lo}`. -/
def execCheck (hi lo : Byte) (s : State) : Host.Outcome State Fault Refusal :=
  .next (s.onBlock fun k =>
    if crcDiffers k.crc (trailerValue hi lo) then k.noteCheck.raise .crcMismatch else k.noteCheck)

/-- Whether some CHECK among the commands finds a mismatch, when CRC is `c` before the first of them (R72). -/
def anyMismatch (c : Crc) : List Instr → Bool
  | [] => false
  | .nop :: is => anyMismatch c is
  | .init :: is => anyMismatch initV is
  | .feed b :: is => anyMismatch (crcUpdate c b) is
  | .check hi lo :: is => crcDiffers c (trailerValue hi lo) || anyMismatch c is

/-- The result of `report()` (R73). -/
inductive Report where
  | notChecked
  | ok
  | crcError (slaveId functionCode : Byte)
  | crcErrorGeneric
deriving DecidableEq, Repr

/-- R73: the verification result, a function of the registers. -/
def Block.report (k : Block) : Report :=
  if !k.err && !k.chk then .notChecked
  else if !k.err then .ok
  else if k.einfo then .crcError k.sid k.fc
  else .crcErrorGeneric

end Sys2Proof.Machine
end

