-- ==== Sys2Proof/Machine/Port.lean ====
section
/-! DEFINITION. The command port (70_reset_and_hazards.md): what a word does when it completes, acceptance, clock edges,
reset and sampling. -/

namespace Sys2Proof.Machine

/-- R81: the block accepted a word that is no command: ILL <- 1, and nothing else is written. -/
def execIllegal (s : State) : Host.Outcome State Fault Refusal :=
  .next (s.onBlock (Block.raise .illegalCommand))

/-- What a decoded word does when it completes (R53, R81). -/
def runDecoded (d : Decoded) (s : State) : Host.Outcome State Fault Refusal :=
  match d with
  | .command i => exec i s
  | .illegal _ => execIllegal s

/-- What a word does when it completes: "a function of the state before it and of its word alone" (R32). -/
def runWord (w : CmdWord) (s : State) : Host.Outcome State Fault Refusal := runDecoded (decode w) s

/-- Words taking effect one at a time, in order (R34), each complete before the next. -/
def runWords : List CmdWord → State → Host.Outcome State Fault Refusal
  | [], s => .next s
  | w :: ws, s =>
    match runWord w s with
    | .next t => runWords ws t
    | .fault r => .fault r
    | .refused r => .refused r

/-- `cmd_ready_o` (R98): the block is idle and will accept a command. A command presented while reset is asserted is
not accepted (R94), so it is 0 then: log 7. -/
def State.cmdReady (s : State) : Bool := s.inFlight.isNone && !s.rst

/-- The host index moves past the accepted word (R11: "Each accepted command advances `pc` by 1"). -/
def State.advancePc (s : State) : State := { s with pc := s.pc + 1 }

/-- The word is accepted and is now in progress (R98). -/
def State.accept (w : CmdWord) (s : State) : State :=
  { s.advancePc with
    inFlight := some ⟨w, Config.cmdCycles s.draws - 1⟩
    draws := s.draws + 1 }

/-- The command in progress completes: all its writes take effect together (R6, R32), and the block is idle. -/
def completeWord (w : CmdWord) (s : State) : Host.Outcome State Fault Refusal :=
  runWord w { s with inFlight := none }

/-- A clock edge on an idle block (R98): the offered word is accepted. With `pc = n` the host has no command left to
offer (R103). -/
def offerAtEdge (o : Offer) (s : State) : State :=
  match o, s.program[s.pc]? with
  | .held, some w => s.accept w
  | .unstable, some _ => s.accept (Config.freeWord s.draws)
  | .idle, _ => s
  | _, none => s

/-- A rising edge of `clk_i` (R98): nothing is accepted while reset is asserted (R94) or a command is in progress; the
command in progress completes when its cycles have passed. -/
def clockEdge (o : Offer) (s : State) : Host.Outcome State Fault Refusal :=
  if s.rst then .next s
  else
    match s.inFlight with
    | none => .next (offerAtEdge o s)
    | some ⟨w, 0⟩ => completeWord w s
    | some ⟨w, n + 1⟩ => .next { s with inFlight := some ⟨w, n⟩ }

/-- R93, R94: the block takes its reset values, and a command in progress has no effect. `pc` is not affected (R11). -/
def State.assertReset (s : State) : State :=
  { s with block := Block.reset, inFlight := none, rst := true }

/-- Reset is released (R97): the block is in the reset state and idle. -/
def State.releaseReset (s : State) : State := { s with rst := false }

/-- What the outputs show (R100): the registers when `cmd_ready_o` is 1, any value otherwise (log 6). -/
def State.shownOutputs (s : State) : Outputs :=
  if s.cmdReady then s.block.outputs
  else ⟨Config.freeCrcOut s.draws, Config.freeSidOut s.draws, Config.freeFcOut s.draws, Config.freeStatusOut s.draws⟩

/-- The host samples the outputs (R100, R104); reading them has no side effect on the block (R21). -/
def State.takeSample (s : State) : State :=
  { s with
    samples := s.samples ++ [⟨s.cmdReady, s.shownOutputs⟩]
    draws := s.draws + 1 }

/-- One port event. -/
def handleEvent (e : PortEvent) (s : State) : Host.Outcome State Fault Refusal :=
  match e with
  | .edge o => clockEdge o s
  | .assertReset => .next s.assertReset
  | .releaseReset => .next s.releaseReset
  | .sample => .next s.takeSample

/-- With no port event listed: a command in progress completes; an idle block takes the next command, which is
accepted and completes (R98, R105: "takes the next command"); with nothing left to issue, or under reset, nothing
changes (R92). -/
def issueNext (s : State) : Host.Outcome State Fault Refusal :=
  if s.rst then .next s
  else
    match s.inFlight with
    | some f => completeWord f.word s
    | none =>
      match s.program[s.pc]? with
      | some w => runWord w s.advancePc
      | none => .next s

/-- One thing that happens at the port: the next listed event, or the host's next command. -/
def portStep (s : State) : Host.Outcome State Fault Refusal :=
  match s.inputs with
  | [] => issueNext s
  | e :: rest => handleEvent e { s with inputs := rest }

/-- The word that completes in the step from `s`, if one does: under a clock edge the command in progress when its cycles
have passed, and with no event listed the command in progress or the host's next one (R98, R105). -/
def State.completing (s : State) : Option CmdWord :=
  if s.rst then none
  else
    match s.inputs, s.inFlight with
    | [], some f => some f.word
    | [], none => s.program[s.pc]?
    | .edge _ :: _, some ⟨w, 0⟩ => some w
    | _, _ => none

/-- The program with `w` at the index `k` (padded with NOP words if it is shorter). -/
def placeWord (program : List CmdWord) (k : Nat) (w : CmdWord) : List CmdWord :=
  (program ++ List.replicate (k + 1 - program.length) 0x000000#24).set k w

/-- Makes `w` the word the very next step takes: it stands at P[pc], the block is idle, reset is released, and no port
event comes before it. Stands for the host's load of its program: log 2. -/
def State.presentWord (s : State) (w : CmdWord) : State :=
  { s with program := placeWord s.program s.pc w, inFlight := none, rst := false, inputs := [] }

/-- The start of a run of the host program `p` (R11, R103) from the state `s`. The samples already taken stay, so `observe`
shows them too, and the port events listed for the earlier program are dropped; the spec settles neither. DESIGN CHOICE:
log 22. The registers, a command in progress and reset are as in `s`. -/
def State.load (s : State) (p : List CmdWord) : State := { s with program := p, pc := 0, inputs := [] }

/-- R103: the run has ended. -/
def State.runEnded (s : State) : Bool := s.pc == s.program.length && s.cmdReady

/-- The observation of a run (R103): the outputs' registers, and every value sampled when R100 let it. -/
structure Observation where
  final : Outputs
  sampled : List Outputs
deriving DecidableEq, Repr

/-- R103. -/
def State.observe (s : State) : Observation where
  final := s.block.outputs
  sampled := (s.samples.filter (·.valid)).map (·.outputs)

end Sys2Proof.Machine
end

