-- ==== Sys2Proof/Machine/Step.lean ====
section
/-! DEFINITION. One step of the machine, and how a word is placed to be taken next. -/

namespace Sys2Proof.Machine

/-- One step (R98, R105): `portStep`. -/
def step (s : State) : Host.Outcome State Fault Refusal := portStep s

/-- `s` with the command word whose bits are `w` (the table's numbering; bits above `nbits` are 0) where the next step
takes its command. -/
def State.withFetchWord (s : State) (nbits w : Nat) : State :=
  s.presentWord (BitVec.ofNat 24 (w % 2 ^ nbits))

end Sys2Proof.Machine
end

