-- ==== Sys2Proof/Machine/HostProtocol.lean ====
section
/-! DEFINITION. How a host drives the block to encode and to decode a frame (R39 to R43, R55). The block does not check
any of it. -/

namespace Sys2Proof.Machine

/-- `FEED b[0]`, ..., `FEED b[n-1]`, in buffer order (R27). -/
def feedCommands (bs : List Byte) : List Instr := bs.map .feed

/-- INIT, then the FEEDs of the bytes (R39; the expansion of `CRC16` and of `RESIDUE`, R55). -/
def crcCommands (bs : List Byte) : List Instr := .init :: feedCommands bs

/-- The commands of the encode path (R39); without CRC the block is not used (R41). -/
def encodeCommands (withCrc : Bool) (body : List Byte) : List Instr :=
  if withCrc then crcCommands body else []

/-- The bytes the host sends: the body, followed with CRC by `crc_o[7:0]` and then `crc_o[15:8]` (R39, R41, R70). -/
def sentBytes (withCrc : Bool) (body : List Byte) (crcO : Crc) : List Byte :=
  if withCrc then body ++ trailerBytes crcO else body

/-- Body and trailer of a received buffer (R40): the trailer is its last two bytes, `u` then `v`; a buffer shorter than
two bytes has none (R42). -/
def splitTrailer : List Byte → Option (List Byte × Byte × Byte)
  | [] => none
  | [_] => none
  | [u, v] => some ([], u, v)
  | a :: b :: c :: rest => (splitTrailer (b :: c :: rest)).map fun p => (a :: p.1, p.2.1, p.2.2)

/-- INIT, the FEEDs of the body, and `CHECK {v, u}` of the trailer `u, v` (R40; the expansion of `VERIFY`, R55). -/
def checkedCommands (body : List Byte) (u v : Byte) : List Instr := crcCommands body ++ [.check v u]

/-- The commands of the decode path with CRC (R40); `none` is the host's `MalformedFrame`, with no CHECK issued
(R42). -/
def verifyCommands (buffer : List Byte) : Option (List Instr) :=
  (splitTrailer buffer).map fun p => checkedCommands p.1 p.2.1 p.2.2

/-- The body a host interprets (R40, R41): without CRC "the buffer is exactly the ADU with no trailing check bytes". -/
def bodyOf (withCrc : Bool) (buffer : List Byte) : Option (List Byte) :=
  if withCrc then (splitTrailer buffer).map (·.1) else some buffer

/-- R43: whether the host may interpret the fields of the frame just checked. -/
def Block.mayInterpret (k : Block) : Bool := !k.err

/-- The error `CRCError` in its two forms (R73), or success. -/
inductive DecodeResult where
  /-- R42: the buffer has no trailer. -/
  | malformedFrame
  /-- R40, R73: the CHECK mismatched. -/
  | crcError (r : Report)
  /-- R40: the trailer matched; the body may be interpreted. -/
  | accepted (body : List Byte)
deriving DecidableEq, Repr

/-- What the host makes of a received buffer once the commands of `verifyCommands` have completed and left the registers
`k` (R40, R42, R43). -/
def decodeResult (buffer : List Byte) (k : Block) : DecodeResult :=
  match splitTrailer buffer with
  | none => .malformedFrame
  | some p => if k.mayInterpret then .accepted p.1 else .crcError k.report

end Sys2Proof.Machine
end

