-- ==== Sys2Proof/Machine/Assembler.lean ====
section
/-! DEFINITION. The assembler syntax of host programs (R7, R54, R55): a text is a list of characters, a program a list
of command words. What R54 leaves open of the text's form is log 16. -/

namespace Sys2Proof.Machine

/-- Why a line is not accepted. -/
inductive AsmError where
  | unknownMnemonic
  /-- An operand that is no hexadecimal number. -/
  | notHexadecimal
  /-- R54: "An operand out of range ... is an assembly error". -/
  | outOfRange
  | wrongOperandCount
deriving DecidableEq, Repr

/-- One line, parsed: a command, the second spelling CHECKB, the directive `.word` (R54), or a pseudo-instruction
(R55). Operands are not yet range-checked. -/
inductive AsmLine where
  | blank
  | nop
  | init
  | feed (b : Nat)
  | check (v : Nat)
  | checkb (lo hi : Nat)
  | word (w : Nat)
  | crc16 (bs : List Nat)
  | feeds (bs : List Nat)
  | verify (us : List Nat)
  | residue (us : List Nat)
deriving DecidableEq, Repr

/-- A number that must fit in `width` bits (R54). -/
def inRange (width n : Nat) : Except AsmError (BitVec width) :=
  if n < 2 ^ width then .ok (BitVec.ofNat width n) else .error .outOfRange

/-- Byte operands, each in range (R54). -/
def bytesInRange : List Nat → Except AsmError (List Byte)
  | [] => .ok []
  | n :: ns =>
    match inRange 8 n, bytesInRange ns with
    | .ok b, .ok bs => .ok (b :: bs)
    | .error e, _ => .error e
    | _, .error e => .error e

/-- The words of commands. -/
def wordsOf (is : List Instr) : List CmdWord := is.map encode

/-- Commands built from byte operands. -/
def withBytes (ns : List Nat) (f : List Byte → List Instr) : Except AsmError (List CmdWord) :=
  (bytesInRange ns).map fun bs => wordsOf (f bs)

/-- The words a line assembles to (R54, R55). -/
def assembleLine : AsmLine → Except AsmError (List CmdWord)
  | .blank => .ok []
  | .nop => .ok [encode .nop]
  | .init => .ok [encode .init]
  | .feed b => (inRange 8 b).map fun b => [encode (.feed b)]
  | .check v => (inRange 16 v).map fun v => [encode (.check (crcHigh v) (crcLow v))]
  | .checkb lo hi =>
    match inRange 8 lo, inRange 8 hi with
    | .ok lo, .ok hi => .ok [encode (.check hi lo)]
    | _, _ => .error .outOfRange
  | .word w => (inRange 24 w).map fun w => [w]
  | .crc16 bs => withBytes bs crcCommands
  | .feeds bs => withBytes bs feedCommands
  | .verify us =>
    match bytesInRange us with
    | .error e => .error e
    | .ok bs =>
      match verifyCommands bs with
      | none => .error .wrongOperandCount
      | some is => .ok (wordsOf is)
  | .residue us => withBytes us crcCommands

/-- A character between tokens. -/
def isBlank (c : Char) : Bool := c == ' ' || c == '\t' || c == '\r'

/-- The text cut at every `sep`. -/
def cutAt (sep : Char) : List Char → List (List Char)
  | [] => [[]]
  | c :: cs =>
    if c == sep then [] :: cutAt sep cs
    else
      match cutAt sep cs with
      | [] => [[c]]
      | piece :: pieces => (c :: piece) :: pieces

/-- `;` starts a comment that runs to the end of the line (R54). -/
def dropComment (line : List Char) : List Char := line.takeWhile (· != ';')

/-- Without the blanks around it. -/
def trim (cs : List Char) : List Char := ((cs.dropWhile isBlank).reverse.dropWhile isBlank).reverse

/-- The value of a hexadecimal digit. -/
def hexDigit (c : Char) : Option Nat :=
  let n := c.toNat
  if 48 ≤ n && n ≤ 57 then some (n - 48)
  else if 65 ≤ n && n ≤ 70 then some (n - 55)
  else if 97 ≤ n && n ≤ 102 then some (n - 87)
  else none

/-- The value of hexadecimal digits, most significant first, after the value `acc` of those before them. -/
def hexDigits (acc : Nat) : List Char → Option Nat
  | [] => some acc
  | c :: cs =>
    match hexDigit c with
    | some d => hexDigits (16 * acc + d) cs
    | none => none

/-- One operand: a hexadecimal number, with or without `0x` (R7, R54). -/
def parseOperand (cs : List Char) : Except AsmError Nat :=
  let digits := match cs with
    | '0' :: 'x' :: rest => rest
    | _ => cs
  if digits.isEmpty then .error .notHexadecimal
  else
    match hexDigits 0 digits with
    | some n => .ok n
    | none => .error .notHexadecimal

/-- Every operand of a line. -/
def parseOperands : List (List Char) → Except AsmError (List Nat)
  | [] => .ok []
  | cs :: rest =>
    match parseOperand (trim cs), parseOperands rest with
    | .ok n, .ok ns => .ok (n :: ns)
    | .error e, _ => .error e
    | _, .error e => .error e

/-- The operands after a mnemonic, separated by commas; none if only blanks follow. -/
def operandsOf (cs : List Char) : Except AsmError (List Nat) :=
  if (trim cs).isEmpty then .ok [] else parseOperands (cutAt ',' cs)

/-- The line of a mnemonic and its operands (R54, R55). R55 says what CRC16 gives with no operands and asks VERIFY for two
or more; it does not say whether FEEDS may have none and RESIDUE fewer than two. DESIGN CHOICE (log 16): both are accepted
and expand as with more, FEEDS to no words, RESIDUE to INIT and a FEED for the byte, if there is one. -/
def lineOf (mnemonic : List Char) (ops : List Nat) : Except AsmError AsmLine :=
  if mnemonic = ['N', 'O', 'P'] then (if ops = [] then .ok .nop else .error .wrongOperandCount)
  else if mnemonic = ['I', 'N', 'I', 'T'] then (if ops = [] then .ok .init else .error .wrongOperandCount)
  else if mnemonic = ['F', 'E', 'E', 'D'] then
    match ops with
    | [b] => .ok (.feed b)
    | _ => .error .wrongOperandCount
  else if mnemonic = ['C', 'H', 'E', 'C', 'K'] then
    match ops with
    | [v] => .ok (.check v)
    | _ => .error .wrongOperandCount
  else if mnemonic = ['C', 'H', 'E', 'C', 'K', 'B'] then
    match ops with
    | [lo, hi] => .ok (.checkb lo hi)
    | _ => .error .wrongOperandCount
  else if mnemonic = ['.', 'w', 'o', 'r', 'd'] then
    match ops with
    | [w] => .ok (.word w)
    | _ => .error .wrongOperandCount
  else if mnemonic = ['C', 'R', 'C', '1', '6'] then .ok (.crc16 ops)
  else if mnemonic = ['F', 'E', 'E', 'D', 'S'] then .ok (.feeds ops)
  else if mnemonic = ['V', 'E', 'R', 'I', 'F', 'Y'] then .ok (.verify ops)
  else if mnemonic = ['R', 'E', 'S', 'I', 'D', 'U', 'E'] then .ok (.residue ops)
  else .error .unknownMnemonic

/-- One line of text. -/
def parseLine (line : List Char) : Except AsmError AsmLine :=
  let text := trim (dropComment line)
  if text.isEmpty then .ok .blank
  else
    match operandsOf (text.dropWhile (! isBlank ·)) with
    | .ok ops => lineOf (text.takeWhile (! isBlank ·)) ops
    | .error e => .error e

/-- The words of the lines of a text, in order. -/
def assembleLines : List (List Char) → Except AsmError (List CmdWord)
  | [] => .ok []
  | line :: rest =>
    match (parseLine line).bind assembleLine, assembleLines rest with
    | .ok ws, .ok more => .ok (ws ++ more)
    | .error e, _ => .error e
    | _, .error e => .error e

/-- A host program written one command per line (R7, R54). -/
def assemble (text : List Char) : Except AsmError (List CmdWord) := assembleLines (cutAt '\n' text)

end Sys2Proof.Machine
end

