-- ==== Sys2Proof/Machine/Platform.lean ====
section
/-! DEFINITION. A platform with several instances (R4, R91), and the rule that one host owns an instance for a whole frame
(R44, D23). -/

namespace Sys2Proof.Machine

/-- One instance, and the frame that owns it (R44): none right after reset. -/
structure Slot where
  core : State
  owner : Option Nat
deriving DecidableEq, Repr

/-- The instances of a platform: "Instances share no state and do not interact" (R91). -/
structure Platform where
  slots : List Slot
deriving DecidableEq, Repr

/-- A platform of `n` instances right after reset. -/
def Platform.reset (n : Nat) : Platform := ⟨List.replicate n ⟨State.reset, none⟩⟩

/-- The platform of R4, with `N_INST` instances. -/
def Platform.resetAll : Platform := Platform.reset Config.nInst

/-- Whether frame `frame` may issue the word on the instance (R44): an INIT starts the frame; any other word belongs to
the frame that owns the instance, or starts the first frame after reset (R95, R97). Log 11. -/
def Slot.mayIssue (slot : Slot) (frame : Nat) (w : CmdWord) : Bool :=
  decode w == .command .init || slot.owner == none || slot.owner == some frame

/-- The platform once instance `k` has done something with the outcome given, and belongs to `owner`. -/
def Platform.outcomeAt (p : Platform) (k : Nat) (owner : Option Nat) :
    Host.Outcome State Fault Refusal → Host.Outcome Platform Fault Refusal
  | .next t => .next ⟨p.slots.set k ⟨t, owner⟩⟩
  | .fault r => .fault r
  | .refused r => .refused r

/-- The frame `frame` presents the word `w` to instance `k` (R44, R91). The instance accepts it only when its
`cmd_ready_o` is 1: with reset asserted (R94) or a command in progress (R98) nothing happens, whichever frame presents it
(log 11), and the host has to present it again. Once accepted it completes with nothing in between (log 17). Commands of
two frames that interleave on one instance have no meaning (93_implementation_defined.md: refuse). The word is the argument
`w`, not a word of the instance's `program`, and no `pc` moves: R11 gives one host with one P and one `pc`, and the spec
does not say which `pc` counts a word when several frames share a platform. DESIGN CHOICE: log 21. -/
def Platform.issue (p : Platform) (k frame : Nat) (w : CmdWord) : Host.Outcome Platform Fault Refusal :=
  match p.slots[k]? with
  | none => .refused .noSuchInstance
  | some slot =>
    if slot.core.cmdReady then
      if slot.mayIssue frame w then p.outcomeAt k (some frame) (runWord w slot.core)
      else .refused .interleavedFrames
    else .next p

/-- A rising edge of `clk_i` at instance `k` where no frame presents a word (R98): a command in progress there passes one
cycle, or completes. -/
def Platform.idleEdge (p : Platform) (k : Nat) : Host.Outcome Platform Fault Refusal :=
  match p.slots[k]? with
  | none => .refused .noSuchInstance
  | some slot => p.outcomeAt k slot.owner (clockEdge .idle slot.core)

/-- Reset of instance `k` is asserted (R93, R94): no frame owns it any more. -/
def Platform.assertReset (p : Platform) (k : Nat) : Platform :=
  ⟨p.slots.modify k fun slot => ⟨slot.core.assertReset, none⟩⟩

/-- Reset of instance `k` is released (R97). -/
def Platform.releaseReset (p : Platform) (k : Nat) : Platform :=
  ⟨p.slots.modify k fun slot => ⟨slot.core.releaseReset, slot.owner⟩⟩

/-- Reset of instance `k`, asserted and released (R93, R94). -/
def Platform.resetSlot (p : Platform) (k : Nat) : Platform := (p.assertReset k).releaseReset k

end Sys2Proof.Machine
end

