-- ==== Sys2Proof/Safety.lean ====
section
/-! DEFINITION. What counts as a safe run: the invariant of the registers and the port, the fault of a run (R81), and the
order of a host's commands (R97). -/

namespace Sys2Proof.Machine

/-- What the registers of the block always satisfy from reset on: the legal values of R15, the meaning of CHK, ERR and
EINFO (R16 to R18), and the values R12 to R14 give CRC, SID and FC while no byte, or only one, has been fed. -/
structure Block.Inv (k : Block) : Prop where
  /-- R15: "The value 3 is never reached". -/
  cntLegal : k.cnt ≠ 3#2
  /-- R16, R17: a mismatch is found by a CHECK. -/
  errChecked : k.err = true → k.chk = true
  /-- R18: "When ERR = 0, EINFO = 0". -/
  einfoErr : k.einfo = true → k.err = true
  /-- R18, R15: EINFO is written `(CNT = 2)`, and CNT only grows until INIT. -/
  einfoCnt : k.einfo = true → k.cnt = 2#2
  /-- R12 to R14: with no byte fed, CRC is the initial value and SID and FC are 0. -/
  fresh : k.cnt = 0#2 → k.crc = 0xFFFF#16 ∧ k.sid = 0x00#8 ∧ k.fc = 0x00#8
  /-- R14: with one byte fed, FC is still 0. -/
  oneByte : k.cnt = 1#2 → k.fc = 0x00#8

/-- What every state of the machine satisfies from reset on. -/
structure State.Inv (s : State) : Prop where
  block : s.block.Inv
  /-- R94: while reset is asserted the block is in its reset state with no command in progress. -/
  inReset : s.rst = true → s.block = Block.reset ∧ s.inFlight = none
  /-- R11: "a host index `pc` in `0..n`". -/
  pcInProgram : s.pc ≤ s.program.length

/-- R81: "A model treats ILLEGAL_COMMAND as a fault of the run: ILL stays 1 until reset". The verdict on the state a run
ends in. Log 5. -/
def runVerdict (s : State) : Host.Outcome State Fault Refusal :=
  if s.block.ill then .fault .illegalCommand else .next s

/-- R97 step 4: a result is trustworthy only if ILL = 0. -/
def State.trustworthy (s : State) : Bool := !s.block.ill

/-- Where a host stands in a frame (R97 step 2). -/
inductive FramePhase where
  /-- The body is being fed. -/
  | body
  /-- The trailer has been checked: the frame is over. -/
  | checked
deriving DecidableEq, Repr

/-- R97 step 2: each frame is INIT, the FEEDs, and at most one CHECK; NOP may stand anywhere (R63, R101). The block does
not check it: log 20. -/
def framesInOrder : FramePhase → List Instr → Bool
  | _, [] => true
  | p, .nop :: is => framesInOrder p is
  | _, .init :: is => framesInOrder .body is
  | .body, .feed _ :: is => framesInOrder .body is
  | .body, .check _ _ :: is => framesInOrder .checked is
  | .checked, .feed _ :: _ => false
  | .checked, .check _ _ :: _ => false

/-- A host program that follows R97 from reset: every word legal (step 4), the frames in order (step 2). -/
def followsProtocol (p : List CmdWord) : Bool :=
  match p.mapM (fun w => (decode w).command?) with
  | some is => framesInOrder .body is
  | none => false

end Sys2Proof.Machine
end

