-- ==== Sys2Proof/Certificates/Slice0/Obligations.lean ====
section
/-! DEFINITION. The statements made about the machine, each from the rules it names. -/

open Sys2Proof Sys2Proof.Machine

/-! ## Encoding -/

/-- R47 to R50: the word of every command, with every operand at every value, decodes to that command. -/
def Obligations.DecodeOfEncode : Prop :=
  ∀ i : Instr, i.wellFormed = true → decode (encode i) = .command i

/-- R47 to R53: a word that decodes to a command is that command's word, so no command has two words. -/
def Obligations.EncodeOfDecode : Prop :=
  ∀ (w : CmdWord) (i : Instr), decode w = .command i → encode i = w

/-- R47 to R50: the words of each command, by match and mask, and the operand each carries. -/
def Obligations.CommandWordRanges : Prop :=
  (∀ w : CmdWord, decode w = .command .nop ↔ w &&& 0xFFFFFF#24 = 0x000000#24) ∧
  (∀ w : CmdWord, decode w = .command .init ↔ w &&& 0xFFFFFF#24 = 0x010000#24) ∧
  (∀ w : CmdWord, (∃ b, decode w = .command (.feed b)) ↔ w &&& 0xFFFF00#24 = 0x020000#24) ∧
  (∀ (w : CmdWord) (b : Byte), decode w = .command (.feed b) → b = w.extractLsb' 0 8) ∧
  (∀ w : CmdWord, (∃ hi lo, decode w = .command (.check hi lo)) ↔ w &&& 0xFF0000#24 = 0x030000#24) ∧
  (∀ (w : CmdWord) (hi lo : Byte), decode w = .command (.check hi lo) →
    hi = w.extractLsb' 8 8 ∧ lo = w.extractLsb' 0 8)

/-- R51: the illegal words are those of its four bullets; such a word writes ILL <- 1 and changes nothing else; and of
the 2^24 words, 65794 are legal. The spec marks that count as its own inference ("[derived: from rules R47 to R50]"). -/
def Obligations.IllegalWordsOfRule51 : Prop :=
  (∀ w : CmdWord, (∃ r, decode w = .illegal r) ↔
    (0x04 ≤ (w.extractLsb' 16 8).toNat ∨
     (w.extractLsb' 16 8 = 0x00#8 ∧ w.extractLsb' 0 16 ≠ 0#16) ∨
     (w.extractLsb' 16 8 = 0x01#8 ∧ w.extractLsb' 0 16 ≠ 0#16) ∨
     (w.extractLsb' 16 8 = 0x02#8 ∧ w.extractLsb' 8 8 ≠ 0#8))) ∧
  (∀ (w : CmdWord) (r : IllegalReason) (s : State), decode w = .illegal r →
    runWord w s = .next { s with block := { s.block with ill := true } }) ∧
  ((Finset.range (2 ^ 24)).filter fun n => (decode (BitVec.ofNat 24 n)).command?.isSome = true).card = 65794

/-- R47 to R51 on words written out: the encoding examples of 95_test_vectors.md. -/
def Obligations.SpecWordsDecode : Prop :=
  decode 0x000000#24 = .command .nop ∧ decode 0x010000#24 = .command .init ∧
  decode 0x0200A5#24 = .command (.feed 0xA5) ∧ decode 0x030BC4#24 = .command (.check 0x0B 0xC4) ∧
  decode 0x000001#24 = .illegal .nopOperand ∧ decode 0x010100#24 = .illegal .initOperand ∧
  decode 0x020100#24 = .illegal .feedReserved ∧ decode 0x040000#24 = .illegal .unusedOp ∧
  decode 0xFFFFFF#24 = .illegal .unusedOp

/-- R56: a stored program is the three bytes of each word, most significant first, in issue order, and reads back as its
words. -/
def Obligations.StoredProgramReadsBack : Prop :=
  ∀ ws : List CmdWord,
    storeProgram ws = (ws.flatMap fun w => [w.extractLsb' 16 8, w.extractLsb' 8 8, w.extractLsb' 0 8]) ∧
    (∀ w : CmdWord, storeWord w = [w.extractLsb' 16 8, w.extractLsb' 8 8, w.extractLsb' 0 8]) ∧
    (storeProgram ws).length = 3 * ws.length ∧
    loadProgram (storeProgram ws) = some ws

/-! ## Reset -/

/-- R93: reset sets every state element to its reset value, whatever the state before, and the outputs show it. -/
def Obligations.ResetSetsEveryElement : Prop :=
  let values : Block := ⟨0xFFFF#16, 0x00#8, 0x00#8, 0#2, false, false, false, false⟩
  State.reset.block = values ∧
  (∀ (s : State) (rest : List PortEvent), s.inputs = .assertReset :: rest →
    ∃ t, step s = .next t ∧ t.block = values ∧ t.block.outputs = ⟨0xFFFF#16, 0x00#8, 0x00#8, 0x00#8⟩)

/-- R94, R11: reset kills a command in progress; while it is asserted no offered command is accepted, at any edge;
reset never moves `pc`. Released, the block is idle in the reset state. -/
def Obligations.ResetKillsCommand : Prop :=
  (∀ (s : State) (rest : List PortEvent), s.inputs = .assertReset :: rest →
    step s = .next { s with block := Block.reset, inFlight := none, rst := true, inputs := rest }) ∧
  (∀ (s : State) (o : Offer) (rest : List PortEvent), s.rst = true → s.inputs = .edge o :: rest →
    step s = .next { s with inputs := rest }) ∧
  (∀ (s : State) (rest : List PortEvent), s.inputs = .releaseReset :: rest →
    step s = .next { s with rst := false, inputs := rest })

/-- R95 (marked there as derived from R93 and R58): after INIT from any state with ILL = 0 the block is as after reset; INIT right after reset changes nothing. -/
def Obligations.InitEqualsReset : Prop :=
  (∀ s : State, s.block.ill = false →
    exec .init s = .next { s with block := ⟨0xFFFF#16, 0x00#8, 0x00#8, 0#2, false, false, false, false⟩ }) ∧
  (∀ (s : State) (rest : List PortEvent), s.inputs = .assertReset :: rest →
    ∃ t, step s = .next t ∧ exec .init t = .next t) ∧
  exec .init State.reset = .next State.reset

/-! ## The commands: their results, and with them what each leaves unchanged -/

/-- R57: NOP writes no state element; any other word with `op = 0x00` is illegal. -/
def Obligations.NopResult : Prop :=
  encode .nop = 0x000000#24 ∧ (∀ s : State, exec .nop s = .next s) ∧
  ∀ w : CmdWord, w.extractLsb' 16 8 = 0x00#8 → w ≠ 0x000000#24 → ∃ r, decode w = .illegal r

/-- R58: INIT writes CRC, SID, FC, CNT, CHK, ERR and EINFO and leaves ILL, the port and the host alone; two INITs leave
the state of one; any other word with `op = 0x01` is illegal. -/
def Obligations.InitResult : Prop :=
  encode .init = 0x010000#24 ∧
  (∀ s : State, exec .init s = .next { s with block :=
    { crc := 0xFFFF#16, sid := 0x00#8, fc := 0x00#8, cnt := 0#2, chk := false, err := false, einfo := false,
      ill := s.block.ill } }) ∧
  (∀ s t : State, exec .init s = .next t → exec .init t = .next t) ∧
  ∀ w : CmdWord, w.extractLsb' 16 8 = 0x01#8 → w ≠ 0x010000#24 → ∃ r, decode w = .illegal r

/-- R62: FEED folds `b` into CRC, captures it as SID when CNT = 0 and as FC when CNT = 1, and counts it up to 2; CHK,
ERR, EINFO, ILL, the port and the host are left alone; a word with `op = 0x02` and `w[15:8] != 0` does not feed. CNT = 3 is
left out: R15 says it is never reached, and StepKeepsInvariant states so. -/
def Obligations.FeedResult : Prop :=
  (∀ b : Byte, encode (.feed b) = 0x0200#16 ++ b) ∧
  (∀ (b : Byte) (s : State), s.block.cnt ≠ 3#2 → exec (.feed b) s = .next { s with block :=
    { crc := crcUpdate s.block.crc b,
      sid := if s.block.cnt = 0#2 then b else s.block.sid,
      fc := if s.block.cnt = 1#2 then b else s.block.fc,
      cnt := if s.block.cnt = 0#2 then 1#2 else 2#2,
      chk := s.block.chk, err := s.block.err, einfo := s.block.einfo, ill := s.block.ill } }) ∧
  ∀ w : CmdWord, w.extractLsb' 16 8 = 0x02#8 → w.extractLsb' 8 8 ≠ 0x00#8 →
    ∀ s : State, runWord w s = .next { s with block := { s.block with ill := true } }

/-- R71: CHECK writes CHK <- 1; on a mismatch ERR <- 1, and EINFO <- (CNT = 2) if ERR was 0; CRC, SID, FC, CNT, ILL, the
port and the host are left alone; no word with `op = 0x03` is illegal. -/
def Obligations.CheckResult : Prop :=
  (∀ hi lo : Byte, encode (.check hi lo) = 0x03#8 ++ hi ++ lo) ∧
  (∀ (hi lo : Byte) (s : State), s.block.crc = hi ++ lo →
    exec (.check hi lo) s = .next { s with block := { s.block with chk := true } }) ∧
  (∀ (hi lo : Byte) (s : State), s.block.crc ≠ hi ++ lo →
    exec (.check hi lo) s = .next { s with block := { s.block with
      chk := true, err := true,
      einfo := if s.block.err then s.block.einfo else decide (s.block.cnt = 2#2) } }) ∧
  ∀ w : CmdWord, w.extractLsb' 16 8 = 0x03#8 → ∃ hi lo, decode w = .command (.check hi lo)

/-- R81: a word that is no command is accepted and completes like any other: ILL <- 1, nothing else of the block is
written, the block is ready for the next word, and the run it ends in is a faulted one. That a step with no port event
listed accepts and completes the word at once is the model's reading (DEDUCED: log 17), and so is that the step answers a
next state while the fault is the verdict on the run (DEDUCED: log 5). -/
def Obligations.IllegalWordResult : Prop :=
  ∀ (s : State) (w : CmdWord) (r : IllegalReason),
    s.inputs = [] → s.rst = false → s.inFlight = none → s.program[s.pc]? = some w → decode w = .illegal r →
    ∃ t, step s = .next t ∧ t = { s with pc := s.pc + 1, block := { s.block with ill := true } } ∧
      t.cmdReady = true ∧ runVerdict t = .fault .illegalCommand

/-- R62, corner case: when `CRC[7:0] = b`, FEED gives `CRC >> 8`; zero stays zero. -/
def Obligations.FeedOfLowByteShifts : Prop :=
  (∀ (s : State) (b : Byte), s.block.crc.extractLsb' 0 8 = b →
    ∃ t, exec (.feed b) s = .next t ∧ t.block.crc = s.block.crc >>> 8) ∧
  crcUpdate 0x0000#16 0x00#8 = 0x0000#16

/-- R71, corner cases: right after INIT only the trailer FF FF matches; a swapped trailer matches only when its two
bytes are equal; a body of 0 or 1 bytes that mismatches gives EINFO = 0. -/
def Obligations.CheckCornerCases : Prop :=
  (∀ (s t : State) (hi lo : Byte), exec .init s = .next t →
    ∃ u, exec (.check hi lo) t = .next u ∧ (u.block.err = false ↔ hi = 0xFF#8 ∧ lo = 0xFF#8)) ∧
  (∀ s : State, s.block.err = false →
    ∃ u, exec (.check (s.block.crc.extractLsb' 0 8) (s.block.crc.extractLsb' 8 8)) s = .next u ∧
      (u.block.err = false ↔ s.block.crc.extractLsb' 0 8 = s.block.crc.extractLsb' 8 8)) ∧
  (∀ (s : State) (hi lo : Byte), s.block.err = false → s.block.cnt ≠ 2#2 → s.block.crc ≠ hi ++ lo →
    ∃ u, exec (.check hi lo) s = .next u ∧ u.block.err = true ∧ u.block.einfo = false)

/-! ## One step -/

/-- R98, R53, R11: on an idle block with no event listed (log 17) the word at P[pc] is accepted, `pc` moves past it, and a word that decodes to a
command runs exactly that command. -/
def Obligations.StepRunsDecodedCommand : Prop :=
  ∀ (s : State) (w : CmdWord) (i : Instr),
    s.inputs = [] → s.rst = false → s.inFlight = none → s.program[s.pc]? = some w →
    decode w = .command i → i.wellFormed = true →
    step s = exec i { s with pc := s.pc + 1 }

/-- R98: the command in progress runs when its cycles have passed: at its last clock edge, whatever is offered there, or
when no event stands before its completion (the model's reading of an empty list of events: log 17). -/
def Obligations.StepCompletesCommand : Prop :=
  ∀ (s : State) (w : CmdWord) (i : Instr), s.rst = false → decode w = .command i →
    (∀ n, s.inFlight = some ⟨w, n⟩ → s.inputs = [] → step s = exec i { s with inFlight := none }) ∧
    (∀ o rest, s.inFlight = some ⟨w, 0⟩ → s.inputs = .edge o :: rest →
      step s = exec i { s with inFlight := none, inputs := rest })

/-- R98: a clock edge on an idle block accepts the word held there, if the host has one; with nothing offered, or with
the program at its end, nothing changes; while a command is in progress nothing is accepted and one cycle passes. Three
points are the model's: that an unstable offer too changes nothing with the program at its end (DEDUCED: log 8); that State
counts the cycles of the command in progress down, from CMD_CYCLES - 1, with CMD_CYCLES a function in Config (DESIGN CHOICE:
log 9); and the counter `draws`, which is the model's own field (log 12). -/
def Obligations.ClockEdgeRules : Prop :=
  ∀ (s : State) (o : Offer) (rest : List PortEvent), s.rst = false → s.inputs = .edge o :: rest →
    (s.inFlight = none → (o = .idle ∨ s.program[s.pc]? = none) → step s = .next { s with inputs := rest }) ∧
    (∀ w, s.inFlight = none → o = .held → s.program[s.pc]? = some w →
      step s = .next { s with
        inputs := rest, pc := s.pc + 1, draws := s.draws + 1,
        inFlight := some ⟨w, Config.cmdCycles s.draws - 1⟩ }) ∧
    (∀ w n, s.inFlight = some ⟨w, n + 1⟩ →
      step s = .next { s with inputs := rest, inFlight := some ⟨w, n⟩ })

/-- R99: when `cmd_i` changes before acceptance, the word accepted is a free value: any 24-bit word. That `pc` moves by 1
with it, although it need not be P[pc], is the model's reading (DEDUCED: log 8). -/
def Obligations.UnstableOfferAcceptsFreeWord : Prop :=
  ∀ (s : State) (w : CmdWord) (rest : List PortEvent),
    s.rst = false → s.inFlight = none → s.inputs = .edge .unstable :: rest → s.program[s.pc]? = some w →
    ∃ t, step s = .next t ∧ t.pc = s.pc + 1 ∧ t.block = s.block ∧
      t.inFlight.map (·.word) = some (Config.freeWord s.draws)

/-- R98, R23, R34: a command accepted at a clock edge has completed exactly `CMD_CYCLES` edges later, whatever is offered
at those edges; until then the block is not ready and its registers are as before; then its effect is there at once. -/
def Obligations.AcceptedCommandCompletes : Prop :=
  ∀ (s : State) (w : CmdWord) (offers : List Offer) (rest : List PortEvent),
    s.rst = false → s.inFlight = none → s.program[s.pc]? = some w →
    s.inputs = .edge .held :: (offers.map .edge ++ rest) →
    (offers.length < Config.cmdCycles s.draws →
      ∃ t, Sys2Proof.core.run (1 + offers.length) s = .next t ∧ t.cmdReady = false ∧ t.block = s.block) ∧
    (offers.length = Config.cmdCycles s.draws →
      ∃ t, Sys2Proof.core.run (1 + offers.length) s = .next t ∧ t.cmdReady = true ∧ t.pc = s.pc + 1 ∧
        runWord w { s with pc := s.pc + 1, draws := s.draws + 1, inputs := rest } = .next t)

/-- R100, R21: a sample taken when `cmd_ready_o` is 1 shows the registers; one taken while a command is in progress is
marked as not valid, and nothing is said of what it shows; reading changes neither the block, nor the command in progress,
nor `pc`. That a sample taken while reset is asserted is marked so too is the model's choice (DESIGN CHOICE: log 7). -/
def Obligations.SampleReadsOutputs : Prop :=
  ∀ (s : State) (rest : List PortEvent), s.inputs = .sample :: rest →
    ∃ x, step s = .next { s with inputs := rest, samples := s.samples ++ [x], draws := s.draws + 1 } ∧
      (s.inFlight = none → s.rst = false → x = ⟨true, s.block.outputs⟩) ∧
      (s.inFlight ≠ none → x.valid = false) ∧
      (s.rst = true → x.valid = false)

/-- R20: STATUS reads CHK, ERR, EINFO, ILL and CNT at its bits, and its reserved bits read 0; the other outputs are CRC,
SID and FC (R21). That STATUS is 0x00 after reset is the sentence R20 marks as its own inference ("[derived: from rules R15
to R19]"). -/
def Obligations.StatusBits : Prop :=
  ∀ k : Block,
    k.outputs.crcO = k.crc ∧ k.outputs.sidO = k.sid ∧ k.outputs.fcO = k.fc ∧
    k.outputs.statusO.getLsbD 0 = k.chk ∧ k.outputs.statusO.getLsbD 1 = k.err ∧
    k.outputs.statusO.getLsbD 2 = k.einfo ∧ k.outputs.statusO.getLsbD 3 = k.ill ∧
    k.outputs.statusO.extractLsb' 4 2 = k.cnt ∧ k.outputs.statusO.extractLsb' 6 2 = 0#2 ∧
    Block.reset.outputs.statusO = 0x00#8

/-- R105 (marked there as derived from R98 and R81): no step stops; every word presented to an idle block is accepted and completes; a run ends once the host's
program has been issued. That a step with nothing left to issue leaves the state as it is (log 3), and that one step with
no port event listed accepts and completes one word (log 17), are the model's readings (DEDUCED). -/
def Obligations.NoStuckState : Prop :=
  (∀ s : State, ∃ t, step s = .next t) ∧
  (∀ (s : State) (w : CmdWord), s.inputs = [] → s.cmdReady = true → s.program[s.pc]? = some w →
    ∃ t, step s = .next t ∧ t.pc = s.pc + 1 ∧ t.cmdReady = true) ∧
  (∀ s : State, s.inputs = [] → s.cmdReady = true → s.pc ≤ s.program.length →
    ∃ t, Sys2Proof.core.run (s.program.length - s.pc) s = .next t ∧ t.runEnded = true)

/-- R34, R11: with nothing else at the port, a host program is run word by word in issue order, each word complete
before the next, and `pc` counts them. That each step with no port event listed accepts and completes exactly one word,
so that the run takes as many steps as there are words, is the model's reading (DEDUCED: log 17). -/
def Obligations.ProgramRunsInOrder : Prop :=
  ∀ (s : State) (done todo : List CmdWord),
    s.inputs = [] → s.cmdReady = true → s.program = done ++ todo → s.pc = done.length →
    ∃ t, Sys2Proof.core.run todo.length s = .next t ∧ t.pc = s.pc + todo.length ∧
      runWords todo { s with pc := s.pc + todo.length } = .next t

/-- The host's placing of a word (DESIGN CHOICE: log 2): the very next step runs it, since a step with no port event listed
accepts and completes one word (DEDUCED: log 17). -/
def Obligations.PlacedWordRunsNext : Prop :=
  ∀ (s : State) (w : CmdWord) (i : Instr), decode w = .command i →
    step (s.withFetchWord 24 w.toNat) = exec i { s.withFetchWord 24 w.toNat with pc := s.pc + 1 } ∧
    (s.withFetchWord 24 w.toNat).block = s.block ∧
    decodeTableWord 24 w.toNat = some i

/-! ## Whole-machine rules -/

/-- The invariant at reset. -/
def Obligations.ResetMeetsInvariant : Prop := State.reset.Inv

/-- R11, R15 to R18, R94: every step from a state that meets the invariant leads to one that does. -/
def Obligations.StepKeepsInvariant : Prop :=
  ∀ s t : State, s.Inv → step s = .next t → t.Inv

/-- R92, R60: the registers change only by reset or by the word that completes in the step. Which word that is when no port
event is listed is the model's reading (DEDUCED: log 17). -/
def Obligations.RegistersChangeOnlyByCommandOrReset : Prop :=
  ∀ s t : State, step s = .next t →
    (∃ rest, s.inputs = .assertReset :: rest ∧ t.block = Block.reset) ∨
    (s.completing = none ∧ t.block = s.block) ∨
    (∃ w u, s.completing = some w ∧ runWord w s = .next u ∧ t.block = u.block)

/-- R11: `pc` moves only when a command is accepted, then by 1, and stays in 0..n; the program never changes. -/
def Obligations.PcCountsAcceptedCommands : Prop :=
  ∀ s t : State, step s = .next t →
    t.program = s.program ∧
    (t.pc = s.pc ∨ (t.pc = s.pc + 1 ∧ s.cmdReady = true ∧ s.pc < s.program.length))

/-- R32, 10_state.md: a command changes the block's registers only, and never ILL; everything else of the state, and
ILL, is as before. -/
def Obligations.CommandsChangeRegistersOnly : Prop :=
  ∀ (i : Instr) (s : State), ∃ k : Block, exec i s = .next { s with block := k } ∧ k.ill = s.block.ill

/-- 10_state.md, State summary ("written by"): which command may change each register, and when. -/
def Obligations.RegisterWriters : Prop :=
  ∀ (i : Instr) (s t : State), exec i s = .next t →
    (t.block.crc ≠ s.block.crc → i = .init ∨ ∃ b, i = .feed b) ∧
    (t.block.sid ≠ s.block.sid → i = .init ∨ ∃ b, i = .feed b ∧ s.block.cnt = 0#2 ∧ t.block.sid = b) ∧
    (t.block.fc ≠ s.block.fc → i = .init ∨ ∃ b, i = .feed b ∧ s.block.cnt = 1#2 ∧ t.block.fc = b) ∧
    (t.block.cnt ≠ s.block.cnt → i = .init ∨ ∃ b, i = .feed b) ∧
    (t.block.chk ≠ s.block.chk → i = .init ∨ ∃ hi lo, i = .check hi lo ∧ t.block.chk = true)

/-- R32: a word's effect is a function of the registers before it and of the word alone: two states with the same
registers, whatever their ports and hosts, have the same registers after it. -/
def Obligations.EffectDependsOnRegistersAlone : Prop :=
  ∀ (w : CmdWord) (s s' : State), s.block = s'.block →
    ∃ k : Block, runWord w s = .next { s with block := k } ∧ runWord w s' = .next { s' with block := k }

/-- R19, R86: ILL, once 1, is cleared in a step only by reset, and is set only by an illegal word that completes (in a step
with no port event listed: log 17). -/
def Obligations.IllChangesOnlyByIllegalWordOrReset : Prop :=
  ∀ s t : State, step s = .next t → t.block.ill ≠ s.block.ill →
    (t.block.ill = false ∧ ∃ rest, s.inputs = .assertReset :: rest) ∨
    (t.block.ill = true ∧ ∃ w r, s.completing = some w ∧ decode w = .illegal r)

/-- R17: ERR changes in a step only by reset or INIT, which clear it, or by a CHECK that mismatches, which sets it (the word
that completes in a step with no port event listed: log 17). -/
def Obligations.ErrChangesOnlyByMismatchInitOrReset : Prop :=
  ∀ s t : State, step s = .next t → t.block.err ≠ s.block.err →
    (t.block.err = false ∧ ∃ rest, s.inputs = .assertReset :: rest) ∨
    (t.block.err = false ∧ ∃ w, s.completing = some w ∧ decode w = .command .init) ∨
    (t.block.err = true ∧ ∃ w hi lo, s.completing = some w ∧ decode w = .command (.check hi lo) ∧
      s.block.crc ≠ hi ++ lo)

/-- R18: EINFO changes in a step only by reset or INIT, which clear it, or by the CHECK that changes ERR from 0 to 1, which
writes (CNT = 2) (the word that completes in a step with no port event listed: log 17). -/
def Obligations.EinfoWrittenByFirstMismatch : Prop :=
  (∀ s t : State, step s = .next t → t.block.einfo ≠ s.block.einfo →
    (t.block.einfo = false ∧ ∃ rest, s.inputs = .assertReset :: rest) ∨
    (t.block.einfo = false ∧ ∃ w, s.completing = some w ∧ decode w = .command .init) ∨
    (s.block.err = false ∧ t.block.err = true ∧ ∃ w hi lo, s.completing = some w ∧
      decode w = .command (.check hi lo))) ∧
  (∀ (hi lo : Byte) (s t : State), exec (.check hi lo) s = .next t → s.block.err = false → t.block.err = true →
    t.block.einfo = decide (s.block.cnt = 2#2))

/-- R84, R87: a word raises at most one event, CHECK only CRC_MISMATCH and an illegal word only ILLEGAL_COMMAND; an event
already recorded stays recorded unless the word is INIT, which clears CRC_MISMATCH alone. -/
def Obligations.OneEventPerWord : Prop :=
  ∀ (w : CmdWord) (s t : State), runWord w s = .next t →
    (s.block.pending .crcMismatch = false → t.block.pending .crcMismatch = true →
      (∃ hi lo, decode w = .command (.check hi lo)) ∧
        t.block.pending .illegalCommand = s.block.pending .illegalCommand) ∧
    (s.block.pending .illegalCommand = false → t.block.pending .illegalCommand = true →
      (∃ r, decode w = .illegal r) ∧
        t.block.pending .crcMismatch = s.block.pending .crcMismatch ∧ t.block.einfo = s.block.einfo) ∧
    (∀ e, s.block.pending e = true → t.block.pending e = false →
      e = .crcMismatch ∧ decode w = .command .init)

/-- R19, R97: after any words, in any order, ILL is 1 exactly when it was 1 before or one of them is no legal command
word. -/
def Obligations.IllRecordsEveryIllegalWord : Prop :=
  ∀ (ws : List CmdWord) (s : State),
    ∃ t, runWords ws s = .next t ∧ t.block.ill = (s.block.ill || ws.any fun w => !legalWord w)

/-- R97, R81: a host program that follows the frame order from reset, with every word legal, ends with no fault of the
run. The frame order as a check is the model's writing of R97 (log 20), the verdict its reading of R81 (log 5). -/
def Obligations.ProtocolRunIsTrustworthy : Prop :=
  ∀ (p : List CmdWord) (s : State), followsProtocol p = true → s.block.ill = false →
    ∃ t, runWords p s = .next t ∧ t.trustworthy = true ∧ runVerdict t = .next t

/-! ## The CRC -/

/-- R61: the update as its pseudocode gives it. The spec marks the pseudocode as supplied from general knowledge (D28, log
18). -/
def Obligations.CrcUpdateIsBitSerial : Prop :=
  ∀ (c : Crc) (b : Byte),
    crcUpdate c b =
      (List.range 8).foldl
        (fun (c : Crc) _ => if c.getLsbD 0 = true then (c >>> 1) ^^^ 0xA001#16 else c >>> 1)
        (c ^^^ b.setWidth 16)

/-- R65 (marked there as derived from R61): the update is linear over GF(2) in the CRC and the byte together, and fixes zero. -/
def Obligations.CrcUpdateIsLinear : Prop :=
  (∀ (c₁ c₂ : Crc) (b₁ b₂ : Byte),
    crcUpdate (c₁ ^^^ c₂) (b₁ ^^^ b₂) = crcUpdate c₁ b₁ ^^^ crcUpdate c₂ b₂) ∧
  crcUpdate 0x0000#16 0x00#8 = 0x0000#16

/-- R66 (marked there as derived from R65): the table form gives the same value as R61 for every input, and the table of 95_test_vectors.md is `T`. -/
def Obligations.CrcUpdateTableForm : Prop :=
  (∀ (c : Crc) (b : Byte),
    crcUpdate c b = (c >>> 8) ^^^ crcUpdate 0x0000#16 ((c ^^^ b.setWidth 16).extractLsb' 0 8)) ∧
  (∀ n : Byte, tableT[n.toNat]? = some (crcUpdate 0x0000#16 n)) ∧
  (∀ (c : Crc) (b : Byte), crcUpdateTable c b = crcUpdate c b)

/-- R67 (marked there as derived from R61 and R65): the parallel equations give the same value as R61 for every input. -/
def Obligations.CrcUpdateParallelForm : Prop :=
  ∀ (c : Crc) (b : Byte), crcUpdateParallel c b = crcUpdate c b

/-- R68 (its catalogue values are marked there as general knowledge, log 18): 0xA001 is the bit reversal of 0x8005, and the check string "123456789" gives 0x4B37 and residue 0x0000. -/
def Obligations.PolynomialAndCheckValue : Prop :=
  (∀ i : Fin 16, polyR.getLsbD i = (0x8005#16).getLsbD (15 - i)) ∧
  compute [0x31, 0x32, 0x33, 0x34, 0x35, 0x36, 0x37, 0x38, 0x39] = 0x4B37#16 ∧
  compute [0x31, 0x32, 0x33, 0x34, 0x35, 0x36, 0x37, 0x38, 0x39, 0x37, 0x4B] = 0x0000#16

/-- R63, R64 (marked there as derived from R61, R62 and R58): after INIT and FEEDs, CRC is `compute` of the bytes, with NOPs (`none`) anywhere between them; FEEDs right
after reset give the same; `compute` starts from 0xFFFF, folds the bytes in order, and reads CRC out as it stands. -/
def Obligations.ComputeAfterInitAndFeeds : Prop :=
  (∀ (s : State) (bs : List (Option Byte)),
    ∃ t, runWords (encode .init :: bs.map fun o => encode (match o with | some b => .feed b | none => .nop)) s = .next t ∧
      t.block.crc = compute (bs.filterMap id)) ∧
  (∀ (s : State) (bs : List Byte), s.block = Block.reset →
    ∃ t, runWords (bs.map fun b => encode (.feed b)) s = .next t ∧ t.block.crc = compute bs) ∧
  compute [] = 0xFFFF#16 ∧
  (∀ (bs : List Byte) (b : Byte), compute (bs ++ [b]) = crcUpdate (compute bs) b)

/-- R13 to R15: after INIT and the FEEDs of a body, SID is its first byte, FC its second, and CNT says how many of the
two there are. -/
def Obligations.CaptureOfFirstBytes : Prop :=
  ∀ (s : State) (bs : List Byte),
    ∃ t, runWords (encode .init :: bs.map fun b => encode (.feed b)) s = .next t ∧
      t.block.sid = bs.getD 0 0x00#8 ∧ t.block.fc = bs.getD 1 0x00#8 ∧ t.block.cnt.toNat = min bs.length 2

/-- R74 (marked there as derived from R61): a body with its own trailer has residue 0x0000; the trailer that gives it is unique; and a buffer has residue
0x0000 exactly when the CHECK of its trailer against its body matches. -/
def Obligations.ResidueIsZeroExactlyOnMatch : Prop :=
  (∀ body : List Byte,
    compute (body ++ [(compute body).extractLsb' 0 8, (compute body).extractLsb' 8 8]) = 0x0000#16) ∧
  (∀ (c : Crc) (u v : Byte),
    crcUpdate (crcUpdate c u) v = 0x0000#16 → u = c.extractLsb' 0 8 ∧ v = c.extractLsb' 8 8) ∧
  (∀ (s : State) (body : List Byte) (u v : Byte),
    ∃ t, runWords ((checkedCommands body u v).map encode) s = .next t ∧
      (compute (body ++ [u, v]) = 0x0000#16 ↔ t.block.err = false))

/-! ## Frames -/

/-- R40, R73, R43: the decode path on a received buffer: CHECK compares the little-endian trailer with `compute` of the
bytes before it; the report is OK, or CRCError with the slave id and function code when the body has two bytes, or the
generic error; the host accepts the body only without error, and a buffer with no trailer is refused by the host. -/
def Obligations.DecodePathVerdict : Prop :=
  (∀ (s : State) (body : List Byte) (u v : Byte),
    verifyCommands (body ++ [u, v]) = some (checkedCommands body u v) ∧
    ∃ t, runWords ((checkedCommands body u v).map encode) s = .next t ∧ t.block.chk = true ∧
      t.block.err = decide (compute body ≠ v ++ u) ∧
      (compute body = v ++ u → t.block.report = .ok ∧ decodeResult (body ++ [u, v]) t.block = .accepted body) ∧
      (∀ r, compute body ≠ v ++ u →
        r = (match body with | b₀ :: b₁ :: _ => Report.crcError b₀ b₁ | _ => Report.crcErrorGeneric) →
        t.block.report = r ∧ decodeResult (body ++ [u, v]) t.block = .crcError r)) ∧
  (∀ buffer : List Byte, buffer.length < 2 → verifyCommands buffer = none)

/-- R39, R70: on the encode path the host sends the body, then the low byte of `compute` of it, then the high byte. -/
def Obligations.EncodePathSendsTrailer : Prop :=
  ∀ (s : State) (body : List Byte),
    ∃ t, runWords ((encodeCommands true body).map encode) s = .next t ∧
      sentBytes true body t.block.outputs.crcO =
        body ++ [(compute body).extractLsb' 0 8, (compute body).extractLsb' 8 8]

/-- R39, R40 (source example S5): what one host sends on the encode path, another accepts on the decode path, as the same
body. -/
def Obligations.EncodedFrameIsAccepted : Prop :=
  ∀ (s s' t : State) (body : List Byte), runWords ((encodeCommands true body).map encode) s = .next t →
    ∃ is u, verifyCommands (sentBytes true body t.block.outputs.crcO) = some is ∧
      runWords (is.map encode) s' = .next u ∧
      decodeResult (sentBytes true body t.block.outputs.crcO) u.block = .accepted body

/-- R75 (marked there as derived from R61 and R65): if one bit of a buffer that passed CHECK is flipped, anywhere in its body or trailer, CHECK of the new buffer
mismatches. -/
def Obligations.SingleBitErrorIsDetected : Prop :=
  ∀ (s s' t : State) (buffer : List Byte) (is : List Instr) (n : Fin buffer.length) (k : Fin 8),
    verifyCommands buffer = some is → runWords (is.map encode) s = .next t → t.block.err = false →
    ∃ js u, verifyCommands (buffer.modify n (· ^^^ (1#8 <<< k.val))) = some js ∧
      runWords (js.map encode) s' = .next u ∧ u.block.err = true

/-- R76 (marked there as derived from R61): the request frame with four bits flipped still passes; with any one, two or three distinct bits flipped it does
not. -/
def Obligations.LimitsOfDetection : Prop :=
  let frame : List Byte := [0x01, 0x03, 0x00, 0x00, 0x00, 0x02, 0xC4, 0x0B]
  (compute [0x02, 0x43, 0x01, 0x00, 0x00, 0x02] = 0x0BC4#16 ∧ compute [0x01, 0x03, 0x00, 0x00, 0x00, 0x02] = 0x0BC4#16) ∧
  ∀ flips : List (Fin 8 × Fin 8), flips ≠ [] → flips.length ≤ 3 → flips.Nodup →
    compute (flips.foldl (fun u p => u.modify p.1.val (· ^^^ (1#8 <<< p.2.val))) frame) ≠ 0x0000#16

/-- R72: over any FEEDs, NOPs and CHECKs of one frame, ERR is the OR of the mismatches, a matching CHECK leaves it 1, and
EINFO keeps what the first mismatching CHECK wrote. -/
def Obligations.ChecksOfAFrameCombine : Prop :=
  (∀ (is : List Instr) (s : State), Instr.init ∉ is →
    ∃ t, runWords (is.map encode) s = .next t ∧
      t.block.err = (s.block.err || anyMismatch s.block.crc is) ∧
      (s.block.err = true → t.block.einfo = s.block.einfo)) ∧
  (∀ (before after : List Instr) (hi lo : Byte) (s m : State),
    Instr.init ∉ after → runWords (before.map encode) s = .next m →
    m.block.err = false → m.block.crc ≠ hi ++ lo →
    ∃ t, runWords ((before ++ .check hi lo :: after).map encode) s = .next t ∧
      t.block.err = true ∧ t.block.einfo = decide (m.block.cnt = 2#2))

/-- R73: the report, by the flags. -/
def Obligations.ReportByFlags : Prop :=
  ∀ k : Block,
    (k.err = false → k.chk = false → k.report = .notChecked) ∧
    (k.err = false → k.chk = true → k.report = .ok) ∧
    (k.err = true → k.einfo = true → k.report = .crcError k.sid k.fc) ∧
    (k.err = true → k.einfo = false → k.report = .crcErrorGeneric)

/-! ## The assembler and the platform -/

/-- R54: the words each line assembles to, for every operand in range; an operand out of range is an error, not an
encoding, in every line that has operands, the pseudo-instructions of R55 among them. The name of the error, and that VERIFY
checks the range before the number of its operands, are the model's (log 16). -/
def Obligations.AssembledLines : Prop :=
  assembleLine .nop = .ok [0x000000#24] ∧ assembleLine .init = .ok [0x010000#24] ∧
  (∀ n, n ≤ 0xFF → assembleLine (.feed n) = .ok [0x0200#16 ++ BitVec.ofNat 8 n]) ∧
  (∀ n, 0xFF < n → assembleLine (.feed n) = .error .outOfRange) ∧
  (∀ n, n ≤ 0xFFFF → assembleLine (.check n) = .ok [0x03#8 ++ BitVec.ofNat 16 n]) ∧
  (∀ n, 0xFFFF < n → assembleLine (.check n) = .error .outOfRange) ∧
  (∀ lo hi : Byte, assembleLine (.checkb lo.toNat hi.toNat) = .ok [0x03#8 ++ hi ++ lo]) ∧
  (∀ lo hi : Nat, 0xFF < lo ∨ 0xFF < hi → assembleLine (.checkb lo hi) = .error .outOfRange) ∧
  (∀ n, n ≤ 0xFFFFFF → assembleLine (.word n) = .ok [BitVec.ofNat 24 n]) ∧
  (∀ n, 0xFFFFFF < n → assembleLine (.word n) = .error .outOfRange) ∧
  (∀ ns : List Nat, (∃ n ∈ ns, 0xFF < n) →
    assembleLine (.crc16 ns) = .error .outOfRange ∧ assembleLine (.feeds ns) = .error .outOfRange ∧
    assembleLine (.verify ns) = .error .outOfRange ∧ assembleLine (.residue ns) = .error .outOfRange)

/-- R55: the expansion of each pseudo-instruction. That FEEDS with no operands and RESIDUE with fewer than two expand in
the same way is the model's choice (DESIGN CHOICE: log 16). -/
def Obligations.PseudoInstructionExpansions : Prop :=
  ∀ bs : List Byte,
    assembleLine (.crc16 (bs.map (·.toNat))) = .ok (0x010000#24 :: bs.map fun b => 0x0200#16 ++ b) ∧
    assembleLine (.feeds (bs.map (·.toNat))) = .ok (bs.map fun b => 0x0200#16 ++ b) ∧
    assembleLine (.residue (bs.map (·.toNat))) = .ok (0x010000#24 :: bs.map fun b => 0x0200#16 ++ b) ∧
    (∀ u v : Byte, assembleLine (.verify ((bs ++ [u, v]).map (·.toNat))) =
      .ok (0x010000#24 :: (bs.map fun b => 0x0200#16 ++ b) ++ [0x03#8 ++ v ++ u]))

/-- R91: instances share no state and do not interact: a word that an instance accepts gives its block there what it gives
a block alone, and a word, a clock edge or a reset of one instance leaves every other instance as it was. The blocks alone
are compared: that no `pc` moves with a word issued on a platform is the model's (DESIGN CHOICE: log 21), and the statement
says nothing of it. That an accepted word has completed when `issue` answers is log 17. -/
def Obligations.InstancesDoNotInteract : Prop :=
  (∀ (p q : Platform) (k frame : Nat) (w : CmdWord), p.issue k frame w = .next q →
    (∀ j, j ≠ k → q.slots[j]? = p.slots[j]?) ∧
    ∃ a b, p.slots[k]? = some a ∧ q.slots[k]? = some b ∧
      (a.core.cmdReady = true → ∃ t, runWord w a.core = .next t ∧ b.core.block = t.block)) ∧
  (∀ (p q : Platform) (k : Nat), p.idleEdge k = .next q → ∀ j, j ≠ k → q.slots[j]? = p.slots[j]?) ∧
  (∀ (p : Platform) (k j : Nat), j ≠ k →
    (p.assertReset k).slots[j]? = p.slots[j]? ∧ (p.releaseReset k).slots[j]? = p.slots[j]? ∧
    (p.resetSlot k).slots[j]? = p.slots[j]?)

/-- R44 and 93_implementation_defined.md: on an instance that one frame owns and that is ready, a command of another frame
has no meaning, except the INIT that starts that frame. Who owns an instance, and that a word it does not accept is no
command of any frame, is the model's bookkeeping (DESIGN CHOICE: log 11); that the words complete at once is log 17. -/
def Obligations.InterleavedFramesRefused : Prop :=
  ∀ (p : Platform) (k mine other : Nat) (w : CmdWord) (slot : Slot),
    p.slots[k]? = some slot → slot.core.cmdReady = true → slot.owner = some mine → other ≠ mine →
    decode w ≠ .command .init →
    p.issue k other w = .refused .interleavedFrames ∧
    (∃ q, p.issue k mine w = .next q) ∧
    ∃ q, p.issue k other (encode .init) = .next q ∧ q.issue k mine w = .refused .interleavedFrames

/-- R94, R98: an instance of a platform accepts a word only when its `cmd_ready_o` is 1: a word presented with reset
asserted or a command in progress there changes nothing; a word that the owner, or the first frame after reset, presents to
a ready instance is accepted. From the assertion of reset until its release no word is accepted, the registers are the
reset values, and the instance is ready after the release. That an accepted word completes at once is log 17, and the owner
is log 11. -/
def Obligations.PlatformAcceptsOnlyWhenReady : Prop :=
  ∀ (p : Platform) (k frame : Nat) (w : CmdWord) (slot : Slot), p.slots[k]? = some slot →
    (slot.core.rst = true → p.issue k frame w = .next p) ∧
    (slot.core.inFlight ≠ none → p.issue k frame w = .next p) ∧
    (slot.core.rst = false → slot.core.inFlight = none → slot.owner = some frame ∨ slot.owner = none →
      ∃ q b, p.issue k frame w = .next q ∧ q.slots[k]? = some b ∧ b.owner = some frame ∧ b.core.cmdReady = true) ∧
    (p.assertReset k).issue k frame w = .next (p.assertReset k) ∧
    (∃ b, (p.assertReset k).slots[k]? = some b ∧ b.core.block = Block.reset) ∧
    (∃ b, (p.resetSlot k).slots[k]? = some b ∧ b.core.block = Block.reset ∧ b.core.cmdReady = true)
end

