-- ==== Sys2Proof/Laws/Decode.lean ====
section
/-! SUPPORT. The fields of a word laid out from its three bytes, so that no proof takes a word apart bit by bit. -/

namespace Sys2Proof

theorem opField_bytes (a b c : Byte) : opField (a ++ b ++ c) = a := by
  apply BitVec.eq_of_getLsbD_eq
  intro k hk
  simp only [opField, BitVec.getLsbD_extractLsb', BitVec.getLsbD_append]
  rw [if_neg (by omega), if_neg (by omega), decide_eq_true hk, Bool.true_and, show 16 + k - 8 - 8 = k by omega]

theorem hiField_bytes (a b c : Byte) : hiField (a ++ b ++ c) = b := by
  apply BitVec.eq_of_getLsbD_eq
  intro k hk
  simp only [hiField, BitVec.getLsbD_extractLsb', BitVec.getLsbD_append]
  rw [if_neg (by omega), if_pos (by omega), decide_eq_true hk, Bool.true_and, show 8 + k - 8 = k by omega]

theorem loField_bytes (a b c : Byte) : loField (a ++ b ++ c) = c := by
  apply BitVec.eq_of_getLsbD_eq
  intro k hk
  simp only [loField, BitVec.getLsbD_extractLsb', BitVec.getLsbD_append]
  rw [if_pos (by omega), decide_eq_true hk, Bool.true_and, Nat.zero_add]

/-- A word is its three bytes. -/
theorem bytes_of_word (w : CmdWord) : opField w ++ hiField w ++ loField w = w := by
  apply BitVec.eq_of_getLsbD_eq
  intro k hk
  simp only [opField, hiField, loField, BitVec.getLsbD_extractLsb', BitVec.getLsbD_append]
  split
  · rw [decide_eq_true (by assumption), Bool.true_and, Nat.zero_add]
  · split <;> rw [decide_eq_true (by omega), Bool.true_and] <;> congr 1 <;> omega

/-- `imm16` is the two low bytes (R46). -/
theorem immField_eq (w : CmdWord) : immField w = hiField w ++ loField w := by
  apply BitVec.eq_of_getLsbD_eq
  intro k hk
  simp only [immField, hiField, loField, BitVec.getLsbD_extractLsb', BitVec.getLsbD_append]
  split
  · simp [*]
  · rw [decide_eq_true (by omega), Bool.true_and, decide_eq_true (by omega), Bool.true_and]
    congr 1; omega

/-- Two words are equal exactly when their three bytes are. -/
theorem bytes_inj (a b c x y z : Byte) : (a ++ b ++ c : CmdWord) = x ++ y ++ z ↔ a = x ∧ b = y ∧ c = z := by
  constructor
  · intro h
    exact ⟨by rw [← opField_bytes a b c, h, opField_bytes], by rw [← hiField_bytes a b c, h, hiField_bytes],
      by rw [← loField_bytes a b c, h, loField_bytes]⟩
  · rintro ⟨rfl, rfl, rfl⟩; rfl

/-- A mask over a word acts on its three bytes. -/
theorem bytes_and (a b c x y z : Byte) :
    ((a ++ b ++ c : CmdWord) &&& (x ++ y ++ z : CmdWord)) = (a &&& x) ++ (b &&& y) ++ (c &&& z) := by
  apply BitVec.eq_of_getLsbD_eq
  intro k hk
  simp only [BitVec.getLsbD_and, BitVec.getLsbD_append]
  split
  · rfl
  · split <;> rfl

/-- A 16-bit operand is zero exactly when both its bytes are. -/
theorem pair_eq_zero (a b : Byte) : (a ++ b : BitVec 16) = 0#16 ↔ a = 0#8 ∧ b = 0#8 := by
  have h := bytes_inj 0#8 a b 0#8 0#8 0#8
  have e (x y : Byte) : (0#8 ++ x ++ y : CmdWord) = (0#8 ++ (x ++ y : BitVec 16) : CmdWord) := by
    apply BitVec.eq_of_getLsbD_eq
    intro k hk
    simp only [BitVec.getLsbD_append]
    split
    · rw [if_pos (by omega)]
    · split
      · rw [if_pos (by omega)]
      · rw [if_neg (by omega), Nat.sub_sub]
  constructor
  · intro hz
    have := h.mp (by rw [e, e, hz]; decide)
    exact ⟨this.2.1, this.2.2⟩
  · rintro ⟨rfl, rfl⟩; decide

/-- The decoder on a word laid out from its three bytes: every case, said once. -/
theorem decode_bytes (op hi lo : Byte) : decode (op ++ hi ++ lo) =
    if op = 0x00#8 then if hi = 0#8 ∧ lo = 0#8 then .command .nop else .illegal .nopOperand
    else if op = 0x01#8 then if hi = 0#8 ∧ lo = 0#8 then .command .init else .illegal .initOperand
    else if op = 0x02#8 then if hi = 0#8 then .command (.feed lo) else .illegal .feedReserved
    else if op = 0x03#8 then .command (.check hi lo) else .illegal .unusedOp := by
  simp only [decode, opField_bytes, hiField_bytes, loField_bytes, immField_eq, pair_eq_zero]

end Sys2Proof
end

