-- ==== Sys2Proof/Laws/State.lean ====
section
/-! SUPPORT. What every named update does to every field, one lemma each, so that no proof unfolds a record update. -/

namespace Sys2Proof.Machine

/-! The block's registers. -/

@[simp] theorem Block.startFrame_crc (k : Block) :
    k.startFrame.crc = 0xFFFF#16 := rfl

@[simp] theorem Block.startFrame_sid (k : Block) :
    k.startFrame.sid = 0x00#8 := rfl

@[simp] theorem Block.startFrame_fc (k : Block) :
    k.startFrame.fc = 0x00#8 := rfl

@[simp] theorem Block.startFrame_cnt (k : Block) :
    k.startFrame.cnt = 0#2 := rfl

@[simp] theorem Block.startFrame_chk (k : Block) :
    k.startFrame.chk = false := rfl

@[simp] theorem Block.startFrame_err (k : Block) :
    k.startFrame.err = false := rfl

@[simp] theorem Block.startFrame_einfo (k : Block) :
    k.startFrame.einfo = false := rfl

@[simp] theorem Block.startFrame_ill (k : Block) :
    k.startFrame.ill = k.ill := rfl

@[simp] theorem Block.foldByte_crc (b : Byte) (k : Block) :
    (k.foldByte b).crc = crcUpdate k.crc b := rfl

@[simp] theorem Block.foldByte_sid (b : Byte) (k : Block) :
    (k.foldByte b).sid = k.sid := rfl

@[simp] theorem Block.foldByte_fc (b : Byte) (k : Block) :
    (k.foldByte b).fc = k.fc := rfl

@[simp] theorem Block.foldByte_cnt (b : Byte) (k : Block) :
    (k.foldByte b).cnt = k.cnt := rfl

@[simp] theorem Block.foldByte_chk (b : Byte) (k : Block) :
    (k.foldByte b).chk = k.chk := rfl

@[simp] theorem Block.foldByte_err (b : Byte) (k : Block) :
    (k.foldByte b).err = k.err := rfl

@[simp] theorem Block.foldByte_einfo (b : Byte) (k : Block) :
    (k.foldByte b).einfo = k.einfo := rfl

@[simp] theorem Block.foldByte_ill (b : Byte) (k : Block) :
    (k.foldByte b).ill = k.ill := rfl

@[simp] theorem Block.latchByte_crc (b : Byte) (k : Block) :
    (k.latchByte b).crc = k.crc := rfl

@[simp] theorem Block.latchByte_sid (b : Byte) (k : Block) :
    (k.latchByte b).sid = (if k.cnt = 0#2 then b else k.sid) := rfl

@[simp] theorem Block.latchByte_fc (b : Byte) (k : Block) :
    (k.latchByte b).fc = (if k.cnt = 1#2 then b else k.fc) := rfl

@[simp] theorem Block.latchByte_cnt (b : Byte) (k : Block) :
    (k.latchByte b).cnt = nextCnt k.cnt := rfl

@[simp] theorem Block.latchByte_chk (b : Byte) (k : Block) :
    (k.latchByte b).chk = k.chk := rfl

@[simp] theorem Block.latchByte_err (b : Byte) (k : Block) :
    (k.latchByte b).err = k.err := rfl

@[simp] theorem Block.latchByte_einfo (b : Byte) (k : Block) :
    (k.latchByte b).einfo = k.einfo := rfl

@[simp] theorem Block.latchByte_ill (b : Byte) (k : Block) :
    (k.latchByte b).ill = k.ill := rfl

@[simp] theorem Block.noteCheck_crc (k : Block) :
    k.noteCheck.crc = k.crc := rfl

@[simp] theorem Block.noteCheck_sid (k : Block) :
    k.noteCheck.sid = k.sid := rfl

@[simp] theorem Block.noteCheck_fc (k : Block) :
    k.noteCheck.fc = k.fc := rfl

@[simp] theorem Block.noteCheck_cnt (k : Block) :
    k.noteCheck.cnt = k.cnt := rfl

@[simp] theorem Block.noteCheck_chk (k : Block) :
    k.noteCheck.chk = true := rfl

@[simp] theorem Block.noteCheck_err (k : Block) :
    k.noteCheck.err = k.err := rfl

@[simp] theorem Block.noteCheck_einfo (k : Block) :
    k.noteCheck.einfo = k.einfo := rfl

@[simp] theorem Block.noteCheck_ill (k : Block) :
    k.noteCheck.ill = k.ill := rfl

@[simp] theorem Block.raiseMismatch_crc (k : Block) :
    (k.raise .crcMismatch).crc = k.crc := rfl

@[simp] theorem Block.raiseMismatch_sid (k : Block) :
    (k.raise .crcMismatch).sid = k.sid := rfl

@[simp] theorem Block.raiseMismatch_fc (k : Block) :
    (k.raise .crcMismatch).fc = k.fc := rfl

@[simp] theorem Block.raiseMismatch_cnt (k : Block) :
    (k.raise .crcMismatch).cnt = k.cnt := rfl

@[simp] theorem Block.raiseMismatch_chk (k : Block) :
    (k.raise .crcMismatch).chk = k.chk := rfl

@[simp] theorem Block.raiseMismatch_err (k : Block) :
    (k.raise .crcMismatch).err = true := rfl

@[simp] theorem Block.raiseMismatch_einfo (k : Block) :
    (k.raise .crcMismatch).einfo = (if k.err then k.einfo else infoAvailable k.cnt) := rfl

@[simp] theorem Block.raiseMismatch_ill (k : Block) :
    (k.raise .crcMismatch).ill = k.ill := rfl

@[simp] theorem Block.raiseIllegal_crc (k : Block) :
    (k.raise .illegalCommand).crc = k.crc := rfl

@[simp] theorem Block.raiseIllegal_sid (k : Block) :
    (k.raise .illegalCommand).sid = k.sid := rfl

@[simp] theorem Block.raiseIllegal_fc (k : Block) :
    (k.raise .illegalCommand).fc = k.fc := rfl

@[simp] theorem Block.raiseIllegal_cnt (k : Block) :
    (k.raise .illegalCommand).cnt = k.cnt := rfl

@[simp] theorem Block.raiseIllegal_chk (k : Block) :
    (k.raise .illegalCommand).chk = k.chk := rfl

@[simp] theorem Block.raiseIllegal_err (k : Block) :
    (k.raise .illegalCommand).err = k.err := rfl

@[simp] theorem Block.raiseIllegal_einfo (k : Block) :
    (k.raise .illegalCommand).einfo = k.einfo := rfl

@[simp] theorem Block.raiseIllegal_ill (k : Block) :
    (k.raise .illegalCommand).ill = true := rfl

/-! The whole state. -/

@[simp] theorem State.onBlock_block (f : Block → Block) (s : State) :
    (s.onBlock f).block = f s.block := rfl

@[simp] theorem State.onBlock_inFlight (f : Block → Block) (s : State) :
    (s.onBlock f).inFlight = s.inFlight := rfl

@[simp] theorem State.onBlock_rst (f : Block → Block) (s : State) :
    (s.onBlock f).rst = s.rst := rfl

@[simp] theorem State.onBlock_program (f : Block → Block) (s : State) :
    (s.onBlock f).program = s.program := rfl

@[simp] theorem State.onBlock_pc (f : Block → Block) (s : State) :
    (s.onBlock f).pc = s.pc := rfl

@[simp] theorem State.onBlock_inputs (f : Block → Block) (s : State) :
    (s.onBlock f).inputs = s.inputs := rfl

@[simp] theorem State.onBlock_samples (f : Block → Block) (s : State) :
    (s.onBlock f).samples = s.samples := rfl

@[simp] theorem State.onBlock_draws (f : Block → Block) (s : State) :
    (s.onBlock f).draws = s.draws := rfl

@[simp] theorem State.advancePc_block (s : State) :
    s.advancePc.block = s.block := rfl

@[simp] theorem State.advancePc_inFlight (s : State) :
    s.advancePc.inFlight = s.inFlight := rfl

@[simp] theorem State.advancePc_rst (s : State) :
    s.advancePc.rst = s.rst := rfl

@[simp] theorem State.advancePc_program (s : State) :
    s.advancePc.program = s.program := rfl

@[simp] theorem State.advancePc_pc (s : State) :
    s.advancePc.pc = s.pc + 1 := rfl

@[simp] theorem State.advancePc_inputs (s : State) :
    s.advancePc.inputs = s.inputs := rfl

@[simp] theorem State.advancePc_samples (s : State) :
    s.advancePc.samples = s.samples := rfl

@[simp] theorem State.advancePc_draws (s : State) :
    s.advancePc.draws = s.draws := rfl

@[simp] theorem State.accept_block (w : CmdWord) (s : State) :
    (s.accept w).block = s.block := rfl

@[simp] theorem State.accept_inFlight (w : CmdWord) (s : State) :
    (s.accept w).inFlight = some ⟨w, Config.extraCycles s.draws⟩ := rfl

@[simp] theorem State.accept_rst (w : CmdWord) (s : State) :
    (s.accept w).rst = s.rst := rfl

@[simp] theorem State.accept_program (w : CmdWord) (s : State) :
    (s.accept w).program = s.program := rfl

@[simp] theorem State.accept_pc (w : CmdWord) (s : State) :
    (s.accept w).pc = s.pc + 1 := rfl

@[simp] theorem State.accept_inputs (w : CmdWord) (s : State) :
    (s.accept w).inputs = s.inputs := rfl

@[simp] theorem State.accept_samples (w : CmdWord) (s : State) :
    (s.accept w).samples = s.samples := rfl

@[simp] theorem State.accept_draws (w : CmdWord) (s : State) :
    (s.accept w).draws = s.draws + 1 := rfl

@[simp] theorem State.assertReset_block (s : State) :
    s.assertReset.block = Block.reset := rfl

@[simp] theorem State.assertReset_inFlight (s : State) :
    s.assertReset.inFlight = none := rfl

@[simp] theorem State.assertReset_rst (s : State) :
    s.assertReset.rst = true := rfl

@[simp] theorem State.assertReset_program (s : State) :
    s.assertReset.program = s.program := rfl

@[simp] theorem State.assertReset_pc (s : State) :
    s.assertReset.pc = s.pc := rfl

@[simp] theorem State.assertReset_inputs (s : State) :
    s.assertReset.inputs = s.inputs := rfl

@[simp] theorem State.assertReset_samples (s : State) :
    s.assertReset.samples = s.samples := rfl

@[simp] theorem State.assertReset_draws (s : State) :
    s.assertReset.draws = s.draws := rfl

@[simp] theorem State.releaseReset_block (s : State) :
    s.releaseReset.block = s.block := rfl

@[simp] theorem State.releaseReset_inFlight (s : State) :
    s.releaseReset.inFlight = s.inFlight := rfl

@[simp] theorem State.releaseReset_rst (s : State) :
    s.releaseReset.rst = false := rfl

@[simp] theorem State.releaseReset_program (s : State) :
    s.releaseReset.program = s.program := rfl

@[simp] theorem State.releaseReset_pc (s : State) :
    s.releaseReset.pc = s.pc := rfl

@[simp] theorem State.releaseReset_inputs (s : State) :
    s.releaseReset.inputs = s.inputs := rfl

@[simp] theorem State.releaseReset_samples (s : State) :
    s.releaseReset.samples = s.samples := rfl

@[simp] theorem State.releaseReset_draws (s : State) :
    s.releaseReset.draws = s.draws := rfl

@[simp] theorem State.takeSample_block (s : State) :
    s.takeSample.block = s.block := rfl

@[simp] theorem State.takeSample_inFlight (s : State) :
    s.takeSample.inFlight = s.inFlight := rfl

@[simp] theorem State.takeSample_rst (s : State) :
    s.takeSample.rst = s.rst := rfl

@[simp] theorem State.takeSample_program (s : State) :
    s.takeSample.program = s.program := rfl

@[simp] theorem State.takeSample_pc (s : State) :
    s.takeSample.pc = s.pc := rfl

@[simp] theorem State.takeSample_inputs (s : State) :
    s.takeSample.inputs = s.inputs := rfl

@[simp] theorem State.takeSample_samples (s : State) :
    s.takeSample.samples = s.samples ++ [⟨s.cmdReady, s.shownOutputs⟩] := rfl

@[simp] theorem State.takeSample_draws (s : State) :
    s.takeSample.draws = s.draws + 1 := rfl

@[simp] theorem State.presentWord_block (w : CmdWord) (s : State) :
    (s.presentWord w).block = s.block := rfl

@[simp] theorem State.presentWord_inFlight (w : CmdWord) (s : State) :
    (s.presentWord w).inFlight = none := rfl

@[simp] theorem State.presentWord_rst (w : CmdWord) (s : State) :
    (s.presentWord w).rst = false := rfl

@[simp] theorem State.presentWord_program (w : CmdWord) (s : State) :
    (s.presentWord w).program = placeWord s.program s.pc w := rfl

@[simp] theorem State.presentWord_pc (w : CmdWord) (s : State) :
    (s.presentWord w).pc = s.pc := rfl

@[simp] theorem State.presentWord_inputs (w : CmdWord) (s : State) :
    (s.presentWord w).inputs = [] := rfl

@[simp] theorem State.presentWord_samples (w : CmdWord) (s : State) :
    (s.presentWord w).samples = s.samples := rfl

@[simp] theorem State.presentWord_draws (w : CmdWord) (s : State) :
    (s.presentWord w).draws = s.draws := rfl

@[simp] theorem State.load_block (p : List CmdWord) (s : State) :
    (s.load p).block = s.block := rfl

@[simp] theorem State.load_inFlight (p : List CmdWord) (s : State) :
    (s.load p).inFlight = s.inFlight := rfl

@[simp] theorem State.load_rst (p : List CmdWord) (s : State) :
    (s.load p).rst = s.rst := rfl

@[simp] theorem State.load_program (p : List CmdWord) (s : State) :
    (s.load p).program = p := rfl

@[simp] theorem State.load_pc (p : List CmdWord) (s : State) :
    (s.load p).pc = 0 := rfl

@[simp] theorem State.load_inputs (p : List CmdWord) (s : State) :
    (s.load p).inputs = [] := rfl

@[simp] theorem State.load_samples (p : List CmdWord) (s : State) :
    (s.load p).samples = s.samples := rfl

@[simp] theorem State.load_draws (p : List CmdWord) (s : State) :
    (s.load p).draws = s.draws := rfl

end Sys2Proof.Machine
end

