-- ==== Sys2Proof/Laws/Ops.lean ====
section
/-! SUPPORT. One lemma per shared operation of the registers: what it can do, said once. -/

namespace Sys2Proof.Machine

/-- One iteration of the update is linear over GF(2). -/
theorem crcShift_xor (a b : Crc) : crcShift (a ^^^ b) = crcShift a ^^^ crcShift b := by
  unfold crcShift
  rw [BitVec.getLsbD_xor, BitVec.ushiftRight_xor_distrib]
  apply BitVec.eq_of_getLsbD_eq
  intro k _
  cases a.getLsbD 0 <;> cases b.getLsbD 0 <;> simp only [Bool.xor_false, Bool.xor_true, Bool.not_true, Bool.not_false,
    if_true, Bool.false_eq_true, if_false, BitVec.getLsbD_xor] <;>
    cases (a >>> 1).getLsbD k <;> cases (b >>> 1).getLsbD k <;> cases polyR.getLsbD k <;> rfl

@[simp] theorem crcShift_zero : crcShift 0#16 = 0#16 := by decide

/-- An iteration drops only the bit it tests, so no two values shift to one. -/
theorem crcShift_eq_zero_iff (a : Crc) : crcShift a = 0#16 ↔ a = 0#16 := by
  refine ⟨fun h => ?_, fun h => by rw [h, crcShift_zero]⟩
  have bit (k : Nat) : (crcShift a).getLsbD k = false := by rw [h]; simp
  have h0 : a.getLsbD 0 = false := by
    have h15 := bit 15
    unfold crcShift at h15
    cases h0 : a.getLsbD 0
    · rfl
    · rw [h0, if_pos rfl] at h15
      simp [polyR] at h15
  apply BitVec.eq_of_getLsbD_eq
  intro k hk
  cases k with
  | zero => simpa using h0
  | succ k =>
    have hk' := bit k
    unfold crcShift at hk'
    rw [h0, if_neg (by simp)] at hk'
    simpa [Nat.add_comm] using hk'

/-- The counter stops at 2 (R15). -/
theorem nextCnt_eq (c : BitVec 2) : nextCnt c = if c = 0#2 then 1#2 else 2#2 := by
  revert c; decide

@[simp] theorem crcFold_nil (c : Crc) : crcFold c [] = c := rfl

@[simp] theorem crcFold_cons (c : Crc) (b : Byte) (bs : List Byte) :
    crcFold c (b :: bs) = crcFold (crcUpdate c b) bs := rfl

theorem crcFold_append (c : Crc) (as bs : List Byte) : crcFold c (as ++ bs) = crcFold (crcFold c as) bs :=
  List.foldl_append

/-- A trailer read back is the value it was made from (R28, R70). -/
theorem trailerValue_high_low (c : Crc) : trailerValue (crcHigh c) (crcLow c) = c := by
  apply BitVec.eq_of_getLsbD_eq
  intro k hk
  simp only [trailerValue, crcHigh, crcLow, BitVec.getLsbD_append, BitVec.getLsbD_extractLsb']
  split
  · simp [*]
  · rw [decide_eq_true (by omega), Bool.true_and]
    congr 1; omega

@[simp] theorem crcHigh_trailerValue (hi lo : Byte) : crcHigh (trailerValue hi lo) = hi := by
  apply BitVec.eq_of_getLsbD_eq
  intro k hk
  simp only [trailerValue, crcHigh, BitVec.getLsbD_append, BitVec.getLsbD_extractLsb']
  rw [if_neg (by omega), decide_eq_true hk, Bool.true_and]
  congr 1; omega

@[simp] theorem crcLow_trailerValue (hi lo : Byte) : crcLow (trailerValue hi lo) = lo := by
  apply BitVec.eq_of_getLsbD_eq
  intro k hk
  simp only [trailerValue, crcLow, BitVec.getLsbD_append, BitVec.getLsbD_extractLsb', Nat.zero_add]
  rw [if_pos hk, decide_eq_true hk, Bool.true_and]

@[simp] theorem crcDiffers_eq_false (c v : Crc) : crcDiffers c v = false ↔ c = v := by
  simp [crcDiffers]

@[simp] theorem infoAvailable_eq_true (c : BitVec 2) : infoAvailable c = true ↔ c = 2#2 := by
  simp [infoAvailable]

@[simp] theorem State.onBlock_onBlock (f g : Block → Block) (s : State) :
    (s.onBlock f).onBlock g = s.onBlock fun k => g (f k) := rfl

/-- The place the next step reads holds the word placed there. -/
theorem placeWord_get (p : List CmdWord) (k : Nat) (w : CmdWord) : (placeWord p k w)[k]? = some w := by
  unfold placeWord
  rw [List.getElem?_set_self]
  simp; omega

end Sys2Proof.Machine
end

