-- ==== Sys2Proof/Laws/Exec.lean ====
section
/-! SUPPORT. What a command, a word and a list of words do to the registers, as functions, with the one lemma each that
says a next state is always answered and only the registers change. -/

namespace Sys2Proof.Machine

/-- What a command does to the registers. -/
def blockEffect : Instr → Block → Block
  | .nop => fun k => k
  | .init => Block.startFrame
  | .feed b => fun k => (k.latchByte b).foldByte b
  | .check hi lo => fun k =>
      if crcDiffers k.crc (trailerValue hi lo) then k.noteCheck.raise .crcMismatch else k.noteCheck

/-- What a word does to the registers. -/
def wordEffect (w : CmdWord) : Block → Block :=
  match decode w with
  | .command i => blockEffect i
  | .illegal _ => Block.raise .illegalCommand

/-- What words do to the registers, in order. -/
def wordsEffect (ws : List CmdWord) (k : Block) : Block := ws.foldl (fun k w => wordEffect w k) k

theorem exec_eq (i : Instr) (s : State) : exec i s = .next (s.onBlock (blockEffect i)) := by
  cases i <;> rfl

theorem runWord_eq (w : CmdWord) (s : State) : runWord w s = .next (s.onBlock (wordEffect w)) := by
  unfold runWord runDecoded wordEffect
  cases decode w with
  | command i => exact exec_eq i s
  | illegal r => rfl

theorem runWords_eq (ws : List CmdWord) (s : State) : runWords ws s = .next (s.onBlock (wordsEffect ws)) := by
  induction ws generalizing s with
  | nil => rfl
  | cons w ws ih => simp only [runWords, runWord_eq, ih]; rfl

theorem wordsEffect_append (as bs : List CmdWord) (k : Block) :
    wordsEffect (as ++ bs) k = wordsEffect bs (wordsEffect as k) :=
  List.foldl_append

theorem completeWord_eq (w : CmdWord) (s : State) :
    completeWord w s = .next (({ s with inFlight := none } : State).onBlock (wordEffect w)) :=
  runWord_eq w _

/-- Everything the default step can do (R98, R105, R92). -/
theorem issueNext_cases {s t : State} (h : issueNext s = .next t) :
    ((s.rst = true ∨ (s.inFlight = none ∧ s.program[s.pc]? = none)) ∧ t = s) ∨
    (∃ f, s.rst = false ∧ s.inFlight = some f ∧
      t = ({ s with inFlight := none } : State).onBlock (wordEffect f.word)) ∨
    (∃ w, s.rst = false ∧ s.inFlight = none ∧ s.program[s.pc]? = some w ∧
      t = s.advancePc.onBlock (wordEffect w)) := by
  unfold issueNext at h
  cases hr : s.rst
  · cases hf : s.inFlight with
    | some f => simp [hr, hf, completeWord_eq] at h; exact .inr (.inl ⟨f, rfl, rfl, h.symm⟩)
    | none =>
      cases hp : s.program[s.pc]? with
      | none => simp [hr, hf, hp] at h; exact .inl ⟨.inr ⟨rfl, rfl⟩, h.symm⟩
      | some w => simp [hr, hf, hp, runWord_eq] at h; exact .inr (.inr ⟨w, rfl, rfl, rfl, h.symm⟩)
  · simp [hr] at h; exact .inl ⟨.inl rfl, h.symm⟩

/-- Everything a clock edge on an idle block can do (R98, R99). -/
theorem offerAtEdge_cases (o : Offer) (s : State) :
    offerAtEdge o s = s ∨
    (∃ w x, s.program[s.pc]? = some w ∧ o ≠ .idle ∧ (o = .held → x = w) ∧ offerAtEdge o s = s.accept x) := by
  cases h : s.program[s.pc]? with
  | none => exact .inl (by cases o <;> simp [offerAtEdge, h])
  | some w =>
    cases o with
    | idle => exact .inl (by simp [offerAtEdge])
    | held => exact .inr ⟨w, w, rfl, by simp, by simp, by simp [offerAtEdge, h]⟩
    | unstable => exact .inr ⟨w, Config.freeWord s.draws, rfl, by simp, by simp, by simp [offerAtEdge, h]⟩

/-- Everything a clock edge can do (R94, R98). -/
theorem clockEdge_cases {o : Offer} {s t : State} (h : clockEdge o s = .next t) :
    (s.rst = true ∧ t = s) ∨
    (s.rst = false ∧ s.inFlight = none ∧ t = offerAtEdge o s) ∨
    (∃ w, s.rst = false ∧ s.inFlight = some ⟨w, 0⟩ ∧
      t = ({ s with inFlight := none } : State).onBlock (wordEffect w)) ∨
    (∃ w n, s.rst = false ∧ s.inFlight = some ⟨w, n + 1⟩ ∧ t = { s with inFlight := some ⟨w, n⟩ }) := by
  unfold clockEdge at h
  cases hr : s.rst
  · rcases hf : s.inFlight with _ | ⟨w, _ | n⟩
    · simp [hr, hf] at h; exact .inr (.inl ⟨rfl, rfl, h.symm⟩)
    · simp [hr, hf, completeWord_eq] at h; exact .inr (.inr (.inl ⟨w, rfl, rfl, h.symm⟩))
    · simp [hr, hf] at h; exact .inr (.inr (.inr ⟨w, n, rfl, rfl, h.symm⟩))
  · simp [hr] at h; exact .inl ⟨rfl, h.symm⟩

/-- Everything a step can do. -/
theorem step_cases {s t : State} (h : step s = .next t) :
    (s.inputs = [] ∧ issueNext s = .next t) ∨
    (∃ o rest, s.inputs = .edge o :: rest ∧ clockEdge o { s with inputs := rest } = .next t) ∨
    (∃ rest, s.inputs = .assertReset :: rest ∧ t = ({ s with inputs := rest } : State).assertReset) ∨
    (∃ rest, s.inputs = .releaseReset :: rest ∧ t = ({ s with inputs := rest } : State).releaseReset) ∨
    (∃ rest, s.inputs = .sample :: rest ∧ t = ({ s with inputs := rest } : State).takeSample) := by
  unfold step portStep at h
  rcases hi : s.inputs with _ | ⟨_ | _ | _ | _, rest⟩ <;> simp only [hi, handleEvent] at h
  · exact .inl ⟨rfl, h⟩
  · exact .inr (.inl ⟨_, rest, rfl, h⟩)
  · exact .inr (.inr (.inl ⟨rest, rfl, (Host.Outcome.next.inj h).symm⟩))
  · exact .inr (.inr (.inr (.inl ⟨rest, rfl, (Host.Outcome.next.inj h).symm⟩)))
  · exact .inr (.inr (.inr (.inr ⟨rest, rfl, (Host.Outcome.next.inj h).symm⟩)))

end Sys2Proof.Machine
end

