-- ==== Sys2Proof/Laws/Host.lean ====
section
/-! SUPPORT. The host's buffers and operands: splitting off a trailer, and byte operands that are in range. -/

namespace Sys2Proof.Machine

/-- A body with two bytes after it splits into that body and those bytes (R40). -/
theorem splitTrailer_append (body : List Byte) (u v : Byte) :
    splitTrailer (body ++ [u, v]) = some (body, u, v) := by
  induction body with
  | nil => rfl
  | cons a as ih =>
    cases as with
    | nil => rfl
    | cons b bs =>
      obtain ⟨c, cs, e⟩ : ∃ c cs, bs ++ [u, v] = c :: cs := by cases bs <;> simp
      simp only [List.cons_append, e] at ih ⊢
      simp only [splitTrailer, ih, Option.map_some]

/-- A buffer shorter than two bytes has no trailer (R42). -/
theorem splitTrailer_short {buffer : List Byte} (h : buffer.length < 2) : splitTrailer buffer = none := by
  rcases buffer with _ | ⟨a, _ | ⟨b, bs⟩⟩
  · rfl
  · rfl
  · simp at h

@[simp] theorem inRange_toNat {w : Nat} (b : BitVec w) : inRange w b.toNat = .ok b := by
  simp [inRange, b.isLt]

@[simp] theorem bytesInRange_toNat (bs : List Byte) : bytesInRange (bs.map (·.toNat)) = .ok bs := by
  induction bs with
  | nil => rfl
  | cons b bs ih => simp only [List.map_cons, bytesInRange, inRange_toNat, ih]

/-- A number is in range or refused as out of range, nothing else (R54). -/
theorem inRange_cases (w n : Nat) :
    (n < 2 ^ w ∧ inRange w n = .ok (BitVec.ofNat w n)) ∨ (2 ^ w ≤ n ∧ inRange w n = .error .outOfRange) := by
  unfold inRange
  split
  · exact .inl ⟨by assumption, rfl⟩
  · exact .inr ⟨by omega, rfl⟩

/-- One operand above 0xFF makes the whole list an error (R54). -/
theorem bytesInRange_outOfRange {ns : List Nat} (h : ∃ n ∈ ns, 0xFF < n) :
    bytesInRange ns = .error .outOfRange := by
  induction ns with
  | nil => simp at h
  | cons n ns ih =>
    obtain ⟨m, hm, hlt⟩ := h
    rcases List.mem_cons.mp hm with rfl | hm
    · rcases inRange_cases 8 m with ⟨h, -⟩ | ⟨-, e⟩
      · omega
      · simp only [bytesInRange, e]
    · have tail := ih ⟨m, hm, hlt⟩
      rcases inRange_cases 8 n with ⟨-, e⟩ | ⟨-, e⟩ <;> simp only [bytesInRange, e, tail]

end Sys2Proof.Machine
end

