-- ==== Sys2Proof/Laws/PerInstr.lean ====
section
/-! SUPPORT. A statement made per command: the word of a command belongs to its own row of the opcode table and to no other. -/

namespace Sys2Proof.Laws.EncodesInRow

/-- The row of the opcode table named after the command. -/
def rowName : Instr → String
  | .nop => "NOP"
  | .init => "INIT"
  | .feed _ => "FEED"
  | .check _ _ => "CHECK"

/-- The command's word belongs to exactly one row of the table, the command's own (R47 to R50). -/
def Statement (i : Instr) : Prop :=
  (opcodeTable.filter (·.holds (encode i))).map (·.mnemonic) = [rowName i]

theorem nop : Statement .nop := by unfold Statement; decide

theorem init : Statement .init := by unfold Statement; decide

theorem feed (b : Byte) : Statement (.feed b) := by
  revert b; unfold Statement; decide

/-- A word is outside a row when one bit under the row's mask differs from the row's pattern. -/
theorem not_holds_of_bit (r : TableRow) (w : CmdWord) (k : Nat)
    (h : (w.getLsbD k && r.mask.getLsbD k) ≠ r.pattern.getLsbD k) : r.holds w = false := by
  simp only [TableRow.holds, beq_eq_false_iff_ne]
  intro e
  exact h (by rw [← e, BitVec.getLsbD_and])

/-- The high byte of a CHECK word is its opcode (R50). -/
theorem check_high_bit (hi lo : Byte) (k : Nat) (hk : 16 ≤ k) :
    (encode (.check hi lo)).getLsbD k = (0x03#8).getLsbD (k - 16) := by
  simp only [encode, BitVec.getLsbD_append]
  rw [if_neg (by omega), if_neg (by omega)]
  congr 1

theorem check (hi lo : Byte) : Statement (.check hi lo) := by
  have h0 := not_holds_of_bit ⟨"NOP", 0x000000#24, 0xFFFFFF#24⟩ (encode (.check hi lo)) 16
    (by rw [check_high_bit _ _ _ (by omega)]; decide)
  have h1 := not_holds_of_bit ⟨"INIT", 0x010000#24, 0xFFFFFF#24⟩ (encode (.check hi lo)) 17
    (by rw [check_high_bit _ _ _ (by omega)]; decide)
  have h2 := not_holds_of_bit ⟨"FEED", 0x020000#24, 0xFFFF00#24⟩ (encode (.check hi lo)) 16
    (by rw [check_high_bit _ _ _ (by omega)]; decide)
  have h3 : (⟨"CHECK", 0x030000#24, 0xFF0000#24⟩ : TableRow).holds (encode (.check hi lo)) = true := by
    simp only [TableRow.holds, beq_iff_eq]
    apply BitVec.eq_of_getLsbD_eq
    intro k hk
    rw [BitVec.getLsbD_and]
    rcases Nat.lt_or_ge k 16 with h | h
    · interval_cases k <;> simp
    · rw [check_high_bit _ _ _ h]
      interval_cases k <;> decide
  simp only [Statement, opcodeTable, List.filter, h0, h1, h2, h3, List.map, rowName]

end Sys2Proof.Laws.EncodesInRow
end

