-- ==== Sys2Proof/Laws/Platform.lean ====
section
/-! SUPPORT. What a platform's operations can do, once for each. -/

namespace Sys2Proof.Machine

/-- The instances after one of them has done something: that one, and the others as they were. -/
theorem Platform.outcomeAt_next {p q : Platform} {k : Nat} {owner : Option Nat} {o : Host.Outcome State Fault Refusal}
    (h : p.outcomeAt k owner o = .next q) : ∃ t, o = .next t ∧ q = ⟨p.slots.set k ⟨t, owner⟩⟩ := by
  cases o with
  | next t => cases h; exact ⟨t, rfl, rfl⟩
  | fault r => cases h
  | refused r => cases h

/-- The instance that has just changed. -/
theorem Platform.set_slot {p : Platform} {k : Nat} {slot : Slot} (h : p.slots[k]? = some slot) (x : Slot) :
    (p.slots.set k x)[k]? = some x := by
  simp [(List.getElem?_eq_some_iff.mp h).1]

/-- R94, R98: an instance that is not ready accepts nothing. -/
theorem Platform.issue_notReady {p : Platform} {k frame : Nat} {w : CmdWord} {slot : Slot}
    (h : p.slots[k]? = some slot) (hr : slot.core.cmdReady = false) : p.issue k frame w = .next p := by
  simp [Platform.issue, h, hr]

/-- What a ready instance does with a word its frame may issue. -/
theorem Platform.issue_ready {p : Platform} {k frame : Nat} {w : CmdWord} {slot : Slot}
    (h : p.slots[k]? = some slot) (hr : slot.core.cmdReady = true) (hm : slot.mayIssue frame w = true) :
    p.issue k frame w = .next ⟨p.slots.set k ⟨slot.core.onBlock (wordEffect w), some frame⟩⟩ := by
  simp [Platform.issue, h, hr, hm, Platform.outcomeAt, runWord_eq]

/-- R44: what a ready instance does with a word its frame may not issue. -/
theorem Platform.issue_interleaved {p : Platform} {k frame : Nat} {w : CmdWord} {slot : Slot}
    (h : p.slots[k]? = some slot) (hr : slot.core.cmdReady = true) (hm : slot.mayIssue frame w = false) :
    p.issue k frame w = .refused .interleavedFrames := by
  simp [Platform.issue, h, hr, hm]

/-- Everything a word presented on a platform can do, if the platform goes on. -/
theorem Platform.issue_cases {p q : Platform} {k frame : Nat} {w : CmdWord} (h : p.issue k frame w = .next q) :
    ∃ slot, p.slots[k]? = some slot ∧
      ((slot.core.cmdReady = false ∧ q = p) ∨
       (slot.core.cmdReady = true ∧ slot.mayIssue frame w = true ∧
        q = ⟨p.slots.set k ⟨slot.core.onBlock (wordEffect w), some frame⟩⟩)) := by
  cases hs : p.slots[k]? with
  | none => simp [Platform.issue, hs] at h
  | some slot =>
    refine ⟨slot, rfl, ?_⟩
    cases hr : slot.core.cmdReady with
    | false => rw [Platform.issue_notReady hs hr] at h; cases h; exact .inl ⟨rfl, rfl⟩
    | true =>
      cases hm : slot.mayIssue frame w with
      | false => rw [Platform.issue_interleaved hs hr hm] at h; cases h
      | true => rw [Platform.issue_ready hs hr hm] at h; cases h; exact .inr ⟨rfl, rfl, rfl⟩

/-- A clock edge at one instance of a platform: only that one changes, and its owner stays. -/
theorem Platform.idleEdge_cases {p q : Platform} {k : Nat} (h : p.idleEdge k = .next q) :
    ∃ slot t, p.slots[k]? = some slot ∧ clockEdge .idle slot.core = .next t ∧
      q = ⟨p.slots.set k ⟨t, slot.owner⟩⟩ := by
  cases hs : p.slots[k]? with
  | none => simp [Platform.idleEdge, hs] at h
  | some slot =>
    simp only [Platform.idleEdge, hs] at h
    obtain ⟨t, ht, hq⟩ := Platform.outcomeAt_next h
    exact ⟨slot, t, rfl, ht, hq⟩

/-- R94: the instance whose reset is asserted. -/
theorem Platform.assertReset_slot {p : Platform} {k : Nat} {slot : Slot} (h : p.slots[k]? = some slot) :
    (p.assertReset k).slots[k]? = some ⟨slot.core.assertReset, none⟩ := by
  simp [Platform.assertReset, h]

/-- R97: the instance whose reset has been asserted and released. -/
theorem Platform.resetSlot_slot {p : Platform} {k : Nat} {slot : Slot} (h : p.slots[k]? = some slot) :
    (p.resetSlot k).slots[k]? = some ⟨slot.core.assertReset.releaseReset, none⟩ := by
  simp [Platform.resetSlot, Platform.releaseReset, Platform.assertReset_slot h]

end Sys2Proof.Machine
end

