-- ==== Sys2Proof/Tests/Slice0.lean ====
section
/-! SUPPORT. Tests whose expected results come from the spec (the source of each is named), and for each statement that
has hypotheses a state and operands that meet them. -/

namespace Sys2Proof.Machine.Tests

/-! ## Well-formedness and decoding -/

/-- R51: an ill-formed word for each of its four bullets, which the check refuses. -/
theorem test_illegal_words_refused :
    legalWord 0x040000#24 = false ∧ legalWord 0x000001#24 = false ∧ legalWord 0x010100#24 = false ∧
    legalWord 0x020100#24 = false := by decide

/-- R47 to R50: the words of the four rows are accepted. -/
theorem test_legal_words_accepted :
    legalWord 0x000000#24 = true ∧ legalWord 0x010000#24 = true ∧ legalWord 0x0200FF#24 = true ∧
    legalWord 0x03FFFF#24 = true := by decide

/-- opcode_table.json, NOP: 000000000000000000000000. -/
theorem test_decode_nop : decode 0b000000000000000000000000#24 = .command .nop := by decide

/-- opcode_table.json, INIT: 000000010000000000000000. -/
theorem test_decode_init : decode 0b000000010000000000000000#24 = .command .init := by decide

/-- opcode_table.json, FEED: 0000001000000000bbbbbbbb with b = 10100101. -/
theorem test_decode_feed : decode 0b000000100000000010100101#24 = .command (.feed 0xA5#8) := by decide

/-- opcode_table.json, CHECK: 00000011hhhhhhhhllllllll with hi = 00001011, lo = 11000100 (R50: trailer C4 0B). -/
theorem test_decode_check : decode 0b000000110000101111000100#24 = .command (.check 0x0B#8 0xC4#8) := by decide

/-- 95_test_vectors.md, Encoding: the illegal rows, by name. -/
theorem test_decode_illegal :
    decode 0x000001#24 = .illegal .nopOperand ∧ decode 0x010100#24 = .illegal .initOperand ∧
    decode 0x02FFFF#24 = .illegal .feedReserved ∧ decode 0xFF0000#24 = .illegal .unusedOp := by decide

/-- The decoder on each row of the table, numbered as the table numbers bits. -/
theorem test_decodeTableWord :
    decodeTableWord 24 0x000000 = some .nop ∧ decodeTableWord 24 0x010000 = some .init ∧
    decodeTableWord 24 0x020007 = some (.feed 0x07#8) ∧ decodeTableWord 24 0x031234 = some (.check 0x12#8 0x34#8) ∧
    decodeTableWord 24 0x040000 = none := by decide

/-- R56: 0x0200A5 is stored 02 00 A5; 95_test_vectors.md, P1: the first two words are stored 01 00 00 02 00 01. -/
theorem test_stored_words :
    storeProgram [0x0200A5#24] = [0x02#8, 0x00#8, 0xA5#8] ∧
    storeProgram [0x010000#24, 0x020001#24] = [0x01#8, 0x00#8, 0x00#8, 0x02#8, 0x00#8, 0x01#8] := by decide

/-! ## The CRC -/

/-- 95_test_vectors.md, Update function vectors. -/
theorem test_crcUpdate_vectors :
    crcUpdate 0xFFFF#16 0x00#8 = 0x40BF#16 ∧ crcUpdate 0xFFFF#16 0x80#8 = 0xE0BE#16 ∧
    crcUpdate 0x0000#16 0x80#8 = 0xA001#16 ∧ crcUpdate 0x8000#16 0x00#8 = 0x0080#16 ∧
    crcUpdate 0x4B37#16 0x37#8 = 0x004B#16 := by
  refine ⟨?_, ?_, ?_, ?_, ?_⟩ <;> decide

/-- 95_test_vectors.md, compute: the exception reply of S3 and the two bytes FF FF. -/
theorem test_compute_vectors :
    compute [0x01#8, 0x83#8, 0x01#8] = 0xF080#16 ∧ compute [0xFF#8, 0xFF#8] = 0x0000#16 := by
  constructor <;> decide +kernel

/-- R67: the worked check of the parallel form, and the first FEED of the trace. -/
theorem test_crcUpdateParallel :
    crcUpdateParallel 0xFFFF#16 0xFF#8 = 0x00FF#16 ∧ crcUpdateParallel 0xFFFF#16 0x01#8 = 0x807E#16 := by decide

/-- R66 with the table of 95_test_vectors.md: second byte of the request frame. -/
theorem test_crcUpdateTable : crcUpdateTable 0x807E#16 0x03#8 = 0x2140#16 := by decide

/-! ## One word -/

/-- The registers after a word, from registers `k`. -/
def after (w : CmdWord) (k : Block) : Option Block :=
  match runWord w { State.reset with block := k } with
  | .next t => some t.block
  | _ => none

/-- 95_test_vectors.md, "NOP with ERR". -/
theorem test_nop :
    after 0x000000#24 ⟨0x1234#16, 0x01#8, 0x03#8, 2#2, true, true, true, false⟩ =
      some ⟨0x1234#16, 0x01#8, 0x03#8, 2#2, true, true, true, false⟩ := by decide

/-- 95_test_vectors.md, "INIT" and "INIT keeps ILL". -/
theorem test_init :
    after 0x010000#24 ⟨0x0BC4#16, 0x01#8, 0x03#8, 2#2, true, true, true, false⟩ =
      some ⟨0xFFFF#16, 0x00#8, 0x00#8, 0#2, false, false, false, false⟩ ∧
    after 0x010000#24 ⟨0x1234#16, 0x07#8, 0x00#8, 1#2, false, false, false, true⟩ =
      some ⟨0xFFFF#16, 0x00#8, 0x00#8, 0#2, false, false, false, true⟩ := by decide

/-- 95_test_vectors.md, "FEED" and "FEED second byte". -/
theorem test_feed :
    after 0x020001#24 Block.reset = some ⟨0x807E#16, 0x01#8, 0x00#8, 1#2, false, false, false, false⟩ ∧
    after 0x020003#24 ⟨0x807E#16, 0x01#8, 0x00#8, 1#2, false, false, false, false⟩ =
      some ⟨0x2140#16, 0x01#8, 0x03#8, 2#2, false, false, false, false⟩ := by decide

/-- 95_test_vectors.md, "FEED after CHECK". -/
theorem test_feed_after_check :
    after 0x0200C4#24 ⟨0x0BC4#16, 0x01#8, 0x03#8, 2#2, true, false, false, false⟩ =
      some ⟨0x000B#16, 0x01#8, 0x03#8, 2#2, true, false, false, false⟩ := by decide

/-- 95_test_vectors.md, "CHECK match", "CHECK mismatch" and "CHECK mismatch, 1-byte body". -/
theorem test_check :
    after 0x030BC4#24 ⟨0x0BC4#16, 0x01#8, 0x03#8, 2#2, false, false, false, false⟩ =
      some ⟨0x0BC4#16, 0x01#8, 0x03#8, 2#2, true, false, false, false⟩ ∧
    after 0x03C40B#24 ⟨0x0BC4#16, 0x01#8, 0x03#8, 2#2, false, false, false, false⟩ =
      some ⟨0x0BC4#16, 0x01#8, 0x03#8, 2#2, true, true, true, false⟩ ∧
    after 0x030000#24 ⟨0x4C7F#16, 0x11#8, 0x00#8, 1#2, false, false, false, false⟩ =
      some ⟨0x4C7F#16, 0x11#8, 0x00#8, 1#2, true, true, false, false⟩ := by decide

/-- 95_test_vectors.md, "CHECK match after mismatch" and "CHECK mismatch again, EINFO kept". -/
theorem test_check_sticky :
    after 0x030BC4#24 ⟨0x0BC4#16, 0x01#8, 0x03#8, 2#2, true, true, true, false⟩ =
      some ⟨0x0BC4#16, 0x01#8, 0x03#8, 2#2, true, true, true, false⟩ ∧
    after 0x030000#24 ⟨0x4C7F#16, 0x11#8, 0x22#8, 2#2, true, true, false, false⟩ =
      some ⟨0x4C7F#16, 0x11#8, 0x22#8, 2#2, true, true, false, false⟩ := by decide

/-- 95_test_vectors.md, "illegal FEED" and "illegal INIT". -/
theorem test_illegal :
    after 0x020101#24 ⟨0x807E#16, 0x01#8, 0x00#8, 1#2, false, false, false, false⟩ =
      some ⟨0x807E#16, 0x01#8, 0x00#8, 1#2, false, false, false, true⟩ ∧
    after 0x010001#24 ⟨0x807E#16, 0x01#8, 0x00#8, 1#2, false, false, false, false⟩ =
      some ⟨0x807E#16, 0x01#8, 0x00#8, 1#2, false, false, false, true⟩ := by decide

/-- 95_test_vectors.md: STATUS of "CHECK mismatch" is 0x27, of "INIT keeps ILL" 0x18 before and 0x08 after. -/
theorem test_status :
    Block.status ⟨0x0BC4#16, 0x01#8, 0x03#8, 2#2, true, true, true, false⟩ = 0x27#8 ∧
    Block.status ⟨0x1234#16, 0x07#8, 0x00#8, 1#2, false, false, false, true⟩ = 0x18#8 ∧
    Block.status ⟨0xFFFF#16, 0x00#8, 0x00#8, 0#2, false, false, false, true⟩ = 0x08#8 := by decide

/-- 95_test_vectors.md: `report()` of the end states of P1, P2, P3 and of P4 after pc = 2. -/
theorem test_report :
    Block.report ⟨0xF080#16, 0x01#8, 0x83#8, 2#2, false, false, false, false⟩ = .notChecked ∧
    Block.report ⟨0x0BC4#16, 0x01#8, 0x03#8, 2#2, true, false, false, false⟩ = .ok ∧
    Block.report ⟨0xCB05#16, 0x01#8, 0x03#8, 2#2, true, true, true, false⟩ = .crcError 0x01#8 0x03#8 ∧
    Block.report ⟨0x4C7F#16, 0x11#8, 0x00#8, 1#2, true, true, false, false⟩ = .crcErrorGeneric := by decide

/-! ## One step, the port and the host -/

/-- The state one step leads to. -/
def stepped (s : State) : Option State :=
  match step s with
  | .next t => some t
  | _ => none

/-- R62, R11: FEED 0x01 placed next after reset runs in the next step, and `pc` moves on. -/
theorem test_step_runs_placed_word :
    (stepped (State.reset.withFetchWord 24 0x020001)).map (fun t => (t.block.crc, t.block.sid, t.pc)) =
      some (0x807E#16, 0x01#8, 1) := by decide

/-- R103, R92: with the program at its end, a step changes nothing. -/
theorem test_step_idle : stepped State.reset = some State.reset := by decide

/-- R94: reset kills the command in progress and leaves `pc`. -/
theorem test_reset_kills :
    (stepped { State.reset with
        inFlight := some ⟨0x020001#24, 3⟩, pc := 1, program := [0x020001#24], inputs := [.assertReset] }).map (fun t => (t.block, t.inFlight, t.pc)) =
      some (Block.reset, none, 1) := by decide

/-- R100: a sample of the idle block shows its registers. -/
theorem test_sample_idle :
    (stepped { State.reset with inputs := [.sample] }).map (·.observe.sampled) =
      some [⟨0xFFFF#16, 0x00#8, 0x00#8, 0x00#8⟩] := by decide

/-- R98: while a command is in progress an offered word is not accepted. -/
theorem test_busy_edge :
    (stepped { State.reset with
        inFlight := some ⟨0x020001#24, 1⟩, program := [0x010000#24], inputs := [.edge .held] }).map (fun t => (t.inFlight, t.pc)) =
      some (some ⟨0x020001#24, 0⟩, 0) := by decide

/-- R54, R55, P4: a host program as text, with a comment and a blank line, and its words. -/
theorem test_assemble :
    assemble "CRC16 0x11 ; body\nCHECKB 0x00, 0x00\n\n.word 0x040000\nINIT".toList =
      .ok [0x010000#24, 0x020011#24, 0x030000#24, 0x040000#24, 0x010000#24] := by decide

/-- R54: an operand out of range is an assembly error. -/
theorem test_assemble_out_of_range : assemble "FEED 0x100".toList = .error .outOfRange := by decide

/-- R97: P2 follows the protocol; P4 has an illegal word; a FEED after a CHECK is out of order. -/
theorem test_followsProtocol :
    followsProtocol [0x010000#24, 0x020001#24, 0x030BC4#24] = true ∧
    followsProtocol [0x040000#24] = false ∧
    followsProtocol [0x03FFFF#24, 0x020001#24] = false := by decide

/-! ## States and operands that meet the hypotheses of the statements, clause by clause -/

/-- After the request frame of 95_test_vectors.md has been fed (P2). -/
def fed : Block := ⟨0x0BC4#16, 0x01#8, 0x03#8, 2#2, false, false, false, false⟩

/-- After a first mismatching CHECK of it (P3's flags). -/
def failed : Block := ⟨0x0BC4#16, 0x01#8, 0x03#8, 2#2, true, true, true, false⟩

/-- An idle block that the host is about to give the word `w`. -/
def ready (w : CmdWord) (k : Block) : State := { State.reset with block := k, program := [w] }

/-- The block with the word `w` in progress, `n` edges from its last one. -/
def busy (w : CmdWord) (n : Nat) (k : Block) : State :=
  { State.reset with block := k, program := [w], pc := 1, inFlight := some ⟨w, n⟩ }

theorem witness_DecodeOfEncode : (Instr.check 0xFF#8 0x00#8).wellFormed = true := by decide

theorem witness_EncodeOfDecode : decode 0x0200FF#24 = .command (.feed 0xFF#8) := by decide

theorem witness_CommandWordRanges :
    decode 0x020000#24 = .command (.feed 0x00#8) ∧ decode 0x03FF00#24 = .command (.check 0xFF#8 0x00#8) := by decide

theorem witness_IllegalWordsOfRule51 :
    decode 0x040000#24 = .illegal .unusedOp ∧ decode 0x00FFFF#24 = .illegal .nopOperand ∧
    decode 0x010001#24 = .illegal .initOperand ∧ decode 0x020100#24 = .illegal .feedReserved := by decide

theorem witness_ResetSetsEveryElement :
    ({ busy 0x020001#24 3 failed with inputs := [.assertReset] } : State).inputs = .assertReset :: [] := rfl

theorem witness_ResetKillsCommand :
    ({ busy 0x020001#24 3 failed with inputs := [.assertReset] } : State).inputs = .assertReset :: [] ∧
    ({ State.reset with rst := true, inputs := [.edge .held], program := [0x020001#24] } : State).rst = true ∧
    ({ State.reset with rst := true, inputs := [.edge .held] } : State).inputs = .edge .held :: [] ∧
    ({ State.reset with rst := true, inputs := [.releaseReset] } : State).inputs = .releaseReset :: [] :=
  ⟨rfl, rfl, rfl, rfl⟩

theorem witness_InitEqualsReset :
    (ready 0x010000#24 failed).block.ill = false ∧
    ({ busy 0x010000#24 0 failed with inputs := [.assertReset] } : State).inputs = .assertReset :: [] := ⟨rfl, rfl⟩

theorem witness_NopResult : (0x000100#24).extractLsb' 16 8 = 0x00#8 ∧ 0x000100#24 ≠ 0x000000#24 := by decide

theorem witness_InitResult :
    ((0x010001#24).extractLsb' 16 8 = 0x01#8 ∧ 0x010001#24 ≠ 0x010000#24) ∧
    ∃ t, exec .init (ready 0x010000#24 failed) = .next t := ⟨by decide, _, rfl⟩

theorem witness_FeedResult : fed.cnt ≠ 3#2 ∧ (0x0201FF#24).extractLsb' 16 8 = 0x02#8 ∧ (0x0201FF#24).extractLsb' 8 8 ≠ 0x00#8 := by
  decide

theorem witness_CheckResult :
    fed.crc = 0x0B#8 ++ 0xC4#8 ∧ fed.crc ≠ 0xC4#8 ++ 0x0B#8 ∧ (0x03FFFF#24).extractLsb' 16 8 = 0x03#8 := by decide

theorem witness_IllegalWordResult :
    (ready 0xFFFFFF#24 fed).inputs = [] ∧ (ready 0xFFFFFF#24 fed).rst = false ∧ (ready 0xFFFFFF#24 fed).inFlight = none ∧
    (ready 0xFFFFFF#24 fed).program[(ready 0xFFFFFF#24 fed).pc]? = some 0xFFFFFF#24 ∧
    decode 0xFFFFFF#24 = .illegal .unusedOp := by decide

theorem witness_FeedOfLowByteShifts : fed.crc.extractLsb' 0 8 = 0xC4#8 := by decide

theorem witness_CheckCornerCases :
    (∃ t, exec .init (ready 0x03FFFF#24 failed) = .next t) ∧ fed.err = false ∧
    (Block.reset.err = false ∧ Block.reset.cnt ≠ 2#2 ∧ Block.reset.crc ≠ 0x00#8 ++ 0x00#8) :=
  ⟨⟨_, rfl⟩, rfl, by decide⟩

theorem witness_StepRunsDecodedCommand :
    (ready 0x0200C4#24 fed).inputs = [] ∧ (ready 0x0200C4#24 fed).rst = false ∧ (ready 0x0200C4#24 fed).inFlight = none ∧
    (ready 0x0200C4#24 fed).program[(ready 0x0200C4#24 fed).pc]? = some 0x0200C4#24 ∧
    decode 0x0200C4#24 = .command (.feed 0xC4#8) ∧ (Instr.feed 0xC4#8).wellFormed = true := by decide

theorem witness_StepCompletesCommand :
    (busy 0x030BC4#24 5 fed).rst = false ∧ decode 0x030BC4#24 = .command (.check 0x0B#8 0xC4#8) ∧
    ((busy 0x030BC4#24 5 fed).inFlight = some ⟨0x030BC4#24, 5⟩ ∧ (busy 0x030BC4#24 5 fed).inputs = []) ∧
    ({ busy 0x030BC4#24 0 fed with inputs := [.edge .held] } : State).inFlight = some ⟨0x030BC4#24, 0⟩ ∧
    ({ busy 0x030BC4#24 0 fed with inputs := [.edge .held] } : State).inputs = .edge .held :: [] := by decide

theorem witness_ClockEdgeRules :
    ({ ready 0x000000#24 fed with inputs := [.edge .held] } : State).rst = false ∧
    ({ ready 0x000000#24 fed with inputs := [.edge .held] } : State).inputs = .edge .held :: [] ∧
    ((ready 0x000000#24 fed).inFlight = none ∧ (ready 0x000000#24 fed).program[0]? = some 0x000000#24) ∧
    (State.reset.inFlight = none ∧ State.reset.program[State.reset.pc]? = none) ∧
    (busy 0x000000#24 1 fed).inFlight = some ⟨0x000000#24, 0 + 1⟩ := by decide

theorem witness_UnstableOfferAcceptsFreeWord :
    ({ ready 0x000000#24 fed with inputs := [.edge .unstable] } : State).rst = false ∧
    ({ ready 0x000000#24 fed with inputs := [.edge .unstable] } : State).inFlight = none ∧
    ({ ready 0x000000#24 fed with inputs := [.edge .unstable] } : State).inputs = .edge .unstable :: [] ∧
    (ready 0x000000#24 fed).program[(ready 0x000000#24 fed).pc]? = some 0x000000#24 := by decide

/-- The two clauses of AcceptedCommandCompletes meet at `CMD_CYCLES` edges and one edge fewer (here none at all). -/
theorem witness_AcceptedCommandCompletes :
    (ready 0x0200C4#24 fed).rst = false ∧ (ready 0x0200C4#24 fed).inFlight = none ∧
    (ready 0x0200C4#24 fed).program[(ready 0x0200C4#24 fed).pc]? = some 0x0200C4#24 ∧
    ([] : List Offer).length < Config.cmdCycles (ready 0x0200C4#24 fed).draws ∧
    ∃ offers : List Offer, offers.length = Config.cmdCycles (ready 0x0200C4#24 fed).draws ∧
      ({ ready 0x0200C4#24 fed with inputs := .edge .held :: (offers.map .edge ++ []) } : State).inputs =
        .edge .held :: (offers.map .edge ++ []) :=
  ⟨rfl, rfl, rfl, Nat.succ_pos _, List.replicate _ .held, List.length_replicate, rfl⟩

theorem witness_SampleReadsOutputs :
    ({ ready 0x000000#24 fed with inputs := [.sample] } : State).inputs = .sample :: [] ∧
    ((ready 0x000000#24 fed).inFlight = none ∧ (ready 0x000000#24 fed).rst = false) ∧
    (busy 0x000000#24 0 fed).inFlight ≠ none ∧
    ({ State.reset with rst := true, inputs := [.sample] } : State).rst = true := by decide

theorem witness_NoStuckState :
    (ready 0x040000#24 fed).inputs = [] ∧ (ready 0x040000#24 fed).cmdReady = true ∧
    (ready 0x040000#24 fed).program[(ready 0x040000#24 fed).pc]? = some 0x040000#24 ∧
    (ready 0x040000#24 fed).pc ≤ (ready 0x040000#24 fed).program.length := by decide

theorem witness_ProgramRunsInOrder :
    ({ ready 0x010000#24 fed with program := [0x010000#24, 0x020001#24], pc := 1 } : State).inputs = [] ∧
    ({ ready 0x010000#24 fed with program := [0x010000#24, 0x020001#24], pc := 1 } : State).cmdReady = true ∧
    ({ ready 0x010000#24 fed with program := [0x010000#24, 0x020001#24], pc := 1 } : State).program =
      [0x010000#24] ++ [0x020001#24] ∧ [0x010000#24].length = 1 := by decide

theorem witness_PlacedWordRunsNext : decode 0x010000#24 = .command .init := by decide

/-- A state with a recorded error that meets the invariant. -/
theorem witness_StepKeepsInvariant :
    (ready 0x030000#24 failed).Inv ∧ ∃ t, step (ready 0x030000#24 failed) = .next t :=
  ⟨⟨⟨by decide, by decide, by decide, by decide, by decide, by decide⟩, by decide, by decide⟩, _, rfl⟩

theorem witness_RegistersChangeOnlyByCommandOrReset : ∃ t, step (ready 0x0200C4#24 fed) = .next t := ⟨_, rfl⟩

theorem witness_PcCountsAcceptedCommands : ∃ t, step (ready 0x000000#24 fed) = .next t := ⟨_, rfl⟩

theorem witness_RegisterWriters : ∃ t, exec (.feed 0xC4#8) (ready 0x0200C4#24 Block.reset) = .next t ∧
    t.block.crc ≠ Block.reset.crc ∧ t.block.sid ≠ Block.reset.sid ∧ t.block.cnt ≠ Block.reset.cnt :=
  ⟨_, rfl, by decide⟩

/-- The clauses of RegisterWriters on FC and CHK. -/
theorem witness_RegisterWriters_fc_chk :
    (∃ t, exec .init (ready 0x010000#24 fed) = .next t ∧ t.block.fc ≠ fed.fc) ∧
    ∃ t, exec (.check 0x00#8 0x00#8) (ready 0x030000#24 fed) = .next t ∧ t.block.chk ≠ fed.chk :=
  ⟨⟨_, rfl, by decide⟩, _, rfl, by decide⟩

theorem witness_EffectDependsOnRegistersAlone : (ready 0x000000#24 fed).block = (busy 0x010000#24 2 fed).block := rfl

theorem witness_IllChangesOnlyByIllegalWordOrReset :
    ∃ t, step (ready 0x040000#24 fed) = .next t ∧ t.block.ill ≠ (ready 0x040000#24 fed).block.ill :=
  ⟨_, rfl, by decide⟩

theorem witness_ErrChangesOnlyByMismatchInitOrReset :
    ∃ t, step (ready 0x03C40B#24 fed) = .next t ∧ t.block.err ≠ (ready 0x03C40B#24 fed).block.err :=
  ⟨_, rfl, by decide⟩

theorem witness_EinfoWrittenByFirstMismatch :
    (∃ t, step (ready 0x03C40B#24 fed) = .next t ∧ t.block.einfo ≠ (ready 0x03C40B#24 fed).block.einfo) ∧
    ∃ t, exec (.check 0xC4#8 0x0B#8) (ready 0x03C40B#24 fed) = .next t ∧
      (ready 0x03C40B#24 fed).block.err = false ∧ t.block.err = true :=
  ⟨⟨_, rfl, by decide⟩, _, rfl, by decide⟩

theorem witness_OneEventPerWord :
    (∃ t, runWord 0x03C40B#24 (ready 0x03C40B#24 fed) = .next t ∧
      fed.pending .crcMismatch = false ∧ t.block.pending .crcMismatch = true) ∧
    (∃ t, runWord 0x040000#24 (ready 0x040000#24 fed) = .next t ∧
      fed.pending .illegalCommand = false ∧ t.block.pending .illegalCommand = true) ∧
    ∃ t, runWord 0x010000#24 (ready 0x010000#24 failed) = .next t ∧
      failed.pending .crcMismatch = true ∧ t.block.pending .crcMismatch = false :=
  ⟨⟨_, rfl, by decide⟩, ⟨_, rfl, by decide⟩, _, rfl, by decide⟩

theorem witness_ProtocolRunIsTrustworthy :
    followsProtocol [0x020001#24, 0x03FFFF#24, 0x010000#24, 0x020002#24] = true ∧ fed.ill = false := by decide

theorem witness_ComputeAfterInitAndFeeds : (ready 0x020001#24 Block.reset).block = Block.reset := rfl

theorem witness_ResidueIsZeroExactlyOnMatch : crcUpdate (crcUpdate 0x0BC4#16 0xC4#8) 0x0B#8 = 0x0000#16 := by
  decide +kernel

theorem witness_DecodePathVerdict :
    compute [0xFF#8] = 0x00#8 ++ 0xFF#8 ∧ compute [0xFF#8] ≠ 0xFF#8 ++ 0x00#8 ∧ [0xFF#8].length < 2 := by
  refine ⟨?_, ?_, ?_⟩ <;> decide

theorem witness_EncodedFrameIsAccepted :
    ∃ t, runWords ((encodeCommands true [0xFF#8]).map encode) State.reset = .next t := ⟨_, rfl⟩

/-- The buffer FF FF passes CHECK (R71, empty body), and has bits to flip. -/
theorem witness_SingleBitErrorIsDetected :
    verifyCommands [0xFF#8, 0xFF#8] = some (checkedCommands [] 0xFF#8 0xFF#8) ∧
    (∃ t, runWords ((checkedCommands [] 0xFF#8 0xFF#8).map encode) State.reset = .next t ∧ t.block.err = false) ∧
    0 < [0xFF#8, 0xFF#8].length :=
  ⟨by decide, ⟨_, rfl, by decide⟩, by decide⟩

theorem witness_LimitsOfDetection :
    ([(0, 0), (5, 7), (7, 7)] : List (Fin 8 × Fin 8)) ≠ [] ∧
    ([(0, 0), (5, 7), (7, 7)] : List (Fin 8 × Fin 8)).length ≤ 3 ∧
    ([(0, 0), (5, 7), (7, 7)] : List (Fin 8 × Fin 8)).Nodup := by decide

theorem witness_ChecksOfAFrameCombine :
    Instr.init ∉ [Instr.check 0x00#8 0x00#8, Instr.feed 0x01#8, Instr.check 0x0B#8 0xC4#8] ∧ failed.err = true ∧
    ∃ m, runWords ([Instr.init].map encode) State.reset = .next m ∧ m.block.err = false ∧
      m.block.crc ≠ 0x00#8 ++ 0x00#8 :=
  ⟨by decide, rfl, _, rfl, by decide⟩

theorem witness_ReportByFlags :
    (Block.reset.err = false ∧ Block.reset.chk = false) ∧
    ({ fed with chk := true } : Block).err = false ∧ (failed.err = true ∧ failed.einfo = true) ∧
    ({ failed with einfo := false } : Block).einfo = false := by decide

theorem witness_AssembledLines :
    0xFF ≤ 0xFF ∧ 0xFF < 0x100 ∧ 0xFFFF ≤ 0xFFFF ∧ 0xFFFF < 0x10000 ∧ 0xFFFFFF ≤ 0xFFFFFF ∧ 0xFFFFFF < 0x1000000 ∧
    (0xFF < 0x00 ∨ 0xFF < 0x100) ∧ ∃ n ∈ [0x01, 0x100], 0xFF < n := by decide

/-- Two instances, the first owned by frame 7. -/
def twoInstances : Platform := ⟨[⟨State.reset, some 7⟩, ⟨State.reset, none⟩]⟩

/-- Instance 0 of them with reset asserted, or with a FEED in progress that still waits for one edge. -/
def underReset : Platform := twoInstances.assertReset 0
def midCommand : Platform := ⟨[⟨{ State.reset with inFlight := some ⟨0x020001#24, 1⟩ }, some 7⟩]⟩

theorem witness_InstancesDoNotInteract :
    (∃ q, twoInstances.issue 0 7 0x020001#24 = .next q) ∧
    (∃ a, twoInstances.slots[0]? = some a ∧ a.core.cmdReady = true) ∧
    (∃ q, twoInstances.idleEdge 0 = .next q) ∧ (1 : Nat) ≠ 0 := ⟨⟨_, rfl⟩, ⟨_, rfl, rfl⟩, ⟨_, rfl⟩, by decide⟩

theorem witness_InterleavedFramesRefused :
    twoInstances.slots[0]? = some ⟨State.reset, some 7⟩ ∧ State.reset.cmdReady = true ∧ (8 : Nat) ≠ 7 ∧
    decode 0x020001#24 ≠ .command .init := by
  decide

theorem witness_PlatformAcceptsOnlyWhenReady :
    (∃ a, underReset.slots[0]? = some a ∧ a.core.rst = true) ∧
    (∃ a, midCommand.slots[0]? = some a ∧ a.core.inFlight ≠ none) ∧
    (∃ a, twoInstances.slots[0]? = some a ∧ a.core.rst = false ∧ a.core.inFlight = none ∧ a.owner = some 7) ∧
    (∃ a, twoInstances.slots[1]? = some a ∧ a.core.rst = false ∧ a.core.inFlight = none ∧ a.owner = none) :=
  ⟨⟨_, rfl, rfl⟩, ⟨_, rfl, by decide⟩, ⟨_, rfl, rfl, rfl, rfl⟩, ⟨_, rfl, rfl, rfl, rfl⟩⟩

/-- R94, R98: a word presented under reset, or while another is in progress, is not accepted, even from another frame. -/
theorem test_platform_not_accepted :
    underReset.issue 0 7 0x020001#24 = .next underReset ∧ midCommand.issue 0 8 0x020002#24 = .next midCommand := by
  exact ⟨rfl, rfl⟩

/-- R98: the command in progress on an instance completes at its last edge and nothing else runs there. -/
theorem test_platform_completes :
    ∃ p q s, midCommand.idleEdge 0 = .next p ∧ p.idleEdge 0 = .next q ∧ q.slots[0]? = some s ∧
      s.core.block.sid = 0x01#8 ∧ s.core.block.cnt = 1#2 ∧ s.core.cmdReady = true ∧ s.owner = some 7 :=
  ⟨_, _, _, rfl, rfl, rfl, by decide⟩

end Sys2Proof.Machine.Tests
end

section
/-! SUPPORT. What each command, and each word, does to one register at a time, and what it keeps. -/

namespace Sys2Proof.Machine

@[simp] theorem blockEffect_nop (k : Block) : blockEffect .nop k = k := rfl

@[simp] theorem blockEffect_init (k : Block) : blockEffect .init k = k.startFrame := rfl

@[simp] theorem blockEffect_feed (b : Byte) (k : Block) : blockEffect (.feed b) k = (k.latchByte b).foldByte b := rfl

theorem blockEffect_check_match {hi lo : Byte} {k : Block} (h : k.crc = trailerValue hi lo) :
    blockEffect (.check hi lo) k = k.noteCheck := by
  simp [blockEffect, (crcDiffers_eq_false _ _).mpr h]

theorem blockEffect_check_mismatch {hi lo : Byte} {k : Block} (h : k.crc ≠ trailerValue hi lo) :
    blockEffect (.check hi lo) k = k.noteCheck.raise .crcMismatch := by
  have hd : crcDiffers k.crc (trailerValue hi lo) = true := by simpa [crcDiffers] using h
  simp [blockEffect, hd]

/-- The two things a CHECK can do (R71). -/
theorem blockEffect_check_cases (hi lo : Byte) (k : Block) :
    (k.crc = trailerValue hi lo ∧ blockEffect (.check hi lo) k = k.noteCheck) ∨
    (k.crc ≠ trailerValue hi lo ∧ blockEffect (.check hi lo) k = k.noteCheck.raise .crcMismatch) := by
  by_cases h : k.crc = trailerValue hi lo
  · exact .inl ⟨h, blockEffect_check_match h⟩
  · exact .inr ⟨h, blockEffect_check_mismatch h⟩

theorem wordEffect_of_command {w : CmdWord} {i : Instr} (h : decode w = .command i) : wordEffect w = blockEffect i := by
  simp only [wordEffect, h]

theorem wordEffect_of_illegal {w : CmdWord} {r : IllegalReason} (h : decode w = .illegal r) :
    wordEffect w = Block.raise .illegalCommand := by
  simp only [wordEffect, h]

/-- The registers after a command are its effect on the registers before it (R32). -/
theorem exec_block {i : Instr} {s t : State} (h : exec i s = .next t) : t.block = blockEffect i s.block := by
  rw [exec_eq] at h
  rw [← Host.Outcome.next.inj h, State.onBlock_block]

/-- No command writes ILL (R19, R58). -/
@[simp] theorem blockEffect_ill (i : Instr) (k : Block) : (blockEffect i k).ill = k.ill := by
  cases i with
  | nop => rfl
  | init => rfl
  | feed b => rfl
  | check hi lo => rcases blockEffect_check_cases hi lo k with ⟨-, h⟩ | ⟨-, h⟩ <;> rw [h] <;> rfl

/-- A CHECK writes CHK, ERR and EINFO alone (R71). -/
theorem blockEffect_check_frame (hi lo : Byte) (k : Block) :
    (blockEffect (.check hi lo) k).crc = k.crc ∧ (blockEffect (.check hi lo) k).sid = k.sid ∧
    (blockEffect (.check hi lo) k).fc = k.fc ∧ (blockEffect (.check hi lo) k).cnt = k.cnt ∧
    (blockEffect (.check hi lo) k).chk = true := by
  rcases blockEffect_check_cases hi lo k with ⟨-, h⟩ | ⟨-, h⟩ <;> simp [h]

/-- A command that changes ERR is INIT, which clears it, or a mismatching CHECK, which sets it (R17). -/
theorem blockEffect_err_ne {i : Instr} {k : Block} (h : (blockEffect i k).err ≠ k.err) :
    (i = .init ∧ (blockEffect i k).err = false) ∨
    (∃ hi lo, i = .check hi lo ∧ k.crc ≠ trailerValue hi lo ∧ (blockEffect i k).err = true) := by
  cases i with
  | nop => exact absurd rfl h
  | init => exact .inl ⟨rfl, rfl⟩
  | feed b => exact absurd rfl h
  | check hi lo =>
    rcases blockEffect_check_cases hi lo k with ⟨-, he⟩ | ⟨hne, he⟩
    · exact absurd (by rw [he]; rfl) h
    · exact .inr ⟨hi, lo, rfl, hne, by rw [he]; rfl⟩

/-- A command that changes EINFO is INIT, which clears it, or the CHECK that changes ERR from 0 to 1 (R18). -/
theorem blockEffect_einfo_ne {i : Instr} {k : Block} (h : (blockEffect i k).einfo ≠ k.einfo) :
    (i = .init ∧ (blockEffect i k).einfo = false) ∨
    (∃ hi lo, i = .check hi lo ∧ k.err = false ∧ (blockEffect i k).err = true) := by
  cases i with
  | nop => exact absurd rfl h
  | init => exact .inl ⟨rfl, rfl⟩
  | feed b => exact absurd rfl h
  | check hi lo =>
    rcases blockEffect_check_cases hi lo k with ⟨-, he⟩ | ⟨-, he⟩
    · exact absurd (by rw [he]; rfl) h
    · have herr : k.err = false := by
        by_contra hk
        exact h (by simp [he, hk])
      exact .inr ⟨hi, lo, rfl, herr, by rw [he]; rfl⟩

/-- The CHECK that sets ERR writes EINFO = (CNT = 2) (R18). -/
theorem blockEffect_check_einfo {hi lo : Byte} {k : Block} (h0 : k.err = false)
    (h1 : (blockEffect (.check hi lo) k).err = true) :
    (blockEffect (.check hi lo) k).einfo = decide (k.cnt = 2#2) := by
  rcases blockEffect_check_cases hi lo k with ⟨-, he⟩ | ⟨-, he⟩
  · simp [he, h0] at h1
  · simp [he, h0, infoAvailable, beq_eq_decide]

end Sys2Proof.Machine
end

section
/-! SUPPORT. What one step does to the registers, to reset and to the host's program and `pc`. -/

namespace Sys2Proof.Machine

theorem completing_eq_none_of_rst {s : State} (h : s.rst = true) : s.completing = none := by
  simp [State.completing, h]

/-- The default step writes the registers by the completing word alone. -/
theorem issueNext_block {s t : State} (hi : s.inputs = []) (h : issueNext s = .next t) :
    (s.completing = none ∧ t.block = s.block) ∨
    (∃ w, s.completing = some w ∧ t.block = wordEffect w s.block) := by
  rcases issueNext_cases h with ⟨hr | ⟨hf, hp⟩, rfl⟩ | ⟨f, hr, hf, rfl⟩ | ⟨w, hr, hf, hp, rfl⟩
  · exact .inl ⟨completing_eq_none_of_rst hr, rfl⟩
  · exact .inl ⟨by simp [State.completing, hi, hf, hp], rfl⟩
  · exact .inr ⟨f.word, by simp [State.completing, hi, hr, hf], rfl⟩
  · exact .inr ⟨w, by simp [State.completing, hi, hr, hf, hp], rfl⟩

theorem offerAtEdge_block (o : Offer) (s : State) : (offerAtEdge o s).block = s.block := by
  rcases offerAtEdge_cases o s with h | ⟨-, x, -, -, -, h⟩ <;> rw [h]
  rfl

theorem offerAtEdge_rst (o : Offer) (s : State) : (offerAtEdge o s).rst = s.rst := by
  rcases offerAtEdge_cases o s with h | ⟨-, x, -, -, -, h⟩ <;> rw [h]
  rfl

/-- A clock edge writes the registers by the completing word alone. -/
theorem clockEdge_block {o : Offer} {rest : List PortEvent} {s t : State} (hi : s.inputs = .edge o :: rest)
    (h : clockEdge o { s with inputs := rest } = .next t) :
    (s.completing = none ∧ t.block = s.block) ∨
    (∃ w, s.completing = some w ∧ t.block = wordEffect w s.block) := by
  rcases clockEdge_cases h with ⟨hr, rfl⟩ | ⟨hr, hf, rfl⟩ | ⟨w, hr, hf, rfl⟩ | ⟨w, n, hr, hf, rfl⟩
  · exact .inl ⟨completing_eq_none_of_rst hr, rfl⟩
  · exact .inl ⟨by simp_all [State.completing], offerAtEdge_block _ _⟩
  · exact .inr ⟨w, by simp_all [State.completing], rfl⟩
  · exact .inl ⟨by simp_all [State.completing], rfl⟩

/-- A step writes the registers by asserting reset or by the word that completes in it, and by nothing else (R92). -/
theorem step_block_cases {s t : State} (h : step s = .next t) :
    (∃ rest, s.inputs = .assertReset :: rest ∧ t.block = Block.reset) ∨
    (s.completing = none ∧ t.block = s.block) ∨
    (∃ w, s.completing = some w ∧ t.block = wordEffect w s.block) := by
  rcases step_cases h with ⟨hi, h⟩ | ⟨o, rest, hi, h⟩ | ⟨rest, hi, rfl⟩ | ⟨rest, hi, rfl⟩ | ⟨rest, hi, rfl⟩
  · exact .inr (issueNext_block hi h)
  · exact .inr (clockEdge_block hi h)
  · exact .inl ⟨rest, hi, rfl⟩
  · exact .inr (.inl ⟨by simp [State.completing, hi], rfl⟩)
  · exact .inr (.inl ⟨by simp [State.completing, hi], rfl⟩)

/-- A step that changes a register asserts reset, or completes a command, or completes an illegal word. -/
theorem step_block_ne_cases {α : Type} (f : Block → α) {s t : State} (h : step s = .next t)
    (hne : f t.block ≠ f s.block) :
    (∃ rest, s.inputs = .assertReset :: rest ∧ t.block = Block.reset) ∨
    (∃ w i, s.completing = some w ∧ decode w = .command i ∧ t.block = blockEffect i s.block) ∨
    (∃ w r, s.completing = some w ∧ decode w = .illegal r ∧ t.block = s.block.raise .illegalCommand) := by
  rcases step_block_cases h with hr | ⟨-, hb⟩ | ⟨w, hc, hb⟩
  · exact .inl hr
  · exact absurd (congrArg f hb) hne
  · cases hd : decode w with
    | command i => exact .inr (.inl ⟨w, i, hc, hd, by rw [hb, wordEffect_of_command hd]⟩)
    | illegal r => exact .inr (.inr ⟨w, r, hc, hd, by rw [hb, wordEffect_of_illegal hd]⟩)

/-- After a step that ends under reset, the block is in the reset state, or it was under reset and is as it was (R94). -/
theorem step_rst_cases {s t : State} (h : step s = .next t) (hr : t.rst = true) :
    (t.block = Block.reset ∧ t.inFlight = none) ∨
    (s.rst = true ∧ t.block = s.block ∧ t.inFlight = s.inFlight) := by
  rcases step_cases h with ⟨-, h⟩ | ⟨o, rest, -, h⟩ | ⟨rest, -, rfl⟩ | ⟨rest, -, rfl⟩ | ⟨rest, -, rfl⟩
  · rcases issueNext_cases h with ⟨-, rfl⟩ | ⟨f, hs, -, rfl⟩ | ⟨w, hs, -, -, rfl⟩
    · exact .inr ⟨hr, rfl, rfl⟩
    · exact absurd (hs.symm.trans hr) Bool.false_ne_true
    · exact absurd (hs.symm.trans hr) Bool.false_ne_true
  · rcases clockEdge_cases h with ⟨hs, rfl⟩ | ⟨hs, -, rfl⟩ | ⟨w, hs, -, rfl⟩ | ⟨w, n, hs, -, rfl⟩
    · exact .inr ⟨hs, rfl, rfl⟩
    · rw [offerAtEdge_rst] at hr
      exact absurd (hs.symm.trans hr) Bool.false_ne_true
    · exact absurd (hs.symm.trans hr) Bool.false_ne_true
    · exact absurd (hs.symm.trans hr) Bool.false_ne_true
  · exact .inl ⟨rfl, rfl⟩
  · simp at hr
  · exact .inr ⟨hr, rfl, rfl⟩

end Sys2Proof.Machine
end

section
/-! SUPPORT. The host's index `pc` (R11) in one step. -/

namespace Sys2Proof.Machine

/-- R11: the program is kept, and `pc` either stands or moves past the word that a ready block accepts from the program. -/
def State.HostFrame (s t : State) : Prop :=
  t.program = s.program ∧ (t.pc = s.pc ∨ (t.pc = s.pc + 1 ∧ s.cmdReady = true ∧ s.pc < s.program.length))

theorem cmdReady_of_idle {s : State} (hr : s.rst = false) (hf : s.inFlight = none) : s.cmdReady = true := by
  simp [State.cmdReady, hr, hf]

theorem State.HostFrame.of_accepted {s t : State} {w : CmdWord} (hr : s.rst = false) (hf : s.inFlight = none)
    (hp : s.program[s.pc]? = some w) (hprog : t.program = s.program) (hpc : t.pc = s.pc + 1) : s.HostFrame t :=
  ⟨hprog, .inr ⟨hpc, cmdReady_of_idle hr hf, (List.getElem?_eq_some_iff.mp hp).1⟩⟩

theorem issueNext_hostFrame {s t : State} (h : issueNext s = .next t) : s.HostFrame t := by
  rcases issueNext_cases h with ⟨-, rfl⟩ | ⟨f, -, -, rfl⟩ | ⟨w, hr, hf, hp, rfl⟩
  · exact ⟨rfl, .inl rfl⟩
  · exact ⟨rfl, .inl rfl⟩
  · exact .of_accepted hr hf hp rfl rfl

theorem clockEdge_hostFrame {o : Offer} {s t : State} (h : clockEdge o s = .next t) : s.HostFrame t := by
  rcases clockEdge_cases h with ⟨-, rfl⟩ | ⟨hr, hf, rfl⟩ | ⟨w, -, -, rfl⟩ | ⟨w, n, -, -, rfl⟩
  · exact ⟨rfl, .inl rfl⟩
  · rcases offerAtEdge_cases o s with he | ⟨w, x, hp, -, -, he⟩ <;> rw [he]
    · exact ⟨rfl, .inl rfl⟩
    · exact .of_accepted hr hf hp rfl rfl
  · exact ⟨rfl, .inl rfl⟩
  · exact ⟨rfl, .inl rfl⟩

theorem step_hostFrame {s t : State} (h : step s = .next t) : s.HostFrame t := by
  rcases step_cases h with ⟨-, h⟩ | ⟨o, rest, -, h⟩ | ⟨rest, -, rfl⟩ | ⟨rest, -, rfl⟩ | ⟨rest, -, rfl⟩
  · exact issueNext_hostFrame h
  · have hframe : ({ s with inputs := rest } : State).HostFrame t := clockEdge_hostFrame h
    exact hframe
  · exact ⟨rfl, .inl rfl⟩
  · exact ⟨rfl, .inl rfl⟩
  · exact ⟨rfl, .inl rfl⟩

end Sys2Proof.Machine
end

section
/-! SUPPORT. The registers' invariant under each register update, each command and each word. -/

namespace Sys2Proof.Machine

theorem Block.Inv.reset : Block.reset.Inv :=
  ⟨by decide, by decide, by decide, by decide, by decide, by decide⟩

theorem Block.Inv.startFrame (k : Block) : k.startFrame.Inv where
  cntLegal := by simp
  errChecked := by simp
  einfoErr := by simp
  einfoCnt := by simp
  fresh := by simp
  oneByte := by simp

/-- FEED counts on from a legal CNT (R15), so a byte is latched in SID before FC, and a recorded EINFO keeps CNT = 2. -/
theorem Block.Inv.feed (b : Byte) {k : Block} (hk : k.Inv) : ((k.latchByte b).foldByte b).Inv where
  cntLegal := by
    rw [foldByte_cnt, latchByte_cnt, nextCnt_eq]
    split <;> decide
  errChecked := hk.errChecked
  einfoErr := hk.einfoErr
  einfoCnt := fun he => by
    have hcnt : k.cnt = 2#2 := hk.einfoCnt he
    simp [hcnt, nextCnt_eq]
  fresh := fun h0 => by
    rw [foldByte_cnt, latchByte_cnt, nextCnt_eq] at h0
    split at h0 <;> exact absurd h0 (by decide)
  oneByte := fun h1 => by
    have hcnt : k.cnt = 0#2 := by
      rw [foldByte_cnt, latchByte_cnt, nextCnt_eq] at h1
      by_contra hne
      rw [if_neg hne] at h1
      exact absurd h1 (by decide)
    obtain ⟨-, -, hfc⟩ := hk.fresh hcnt
    simp [hcnt, hfc]

theorem Block.Inv.noteCheck {k : Block} (hk : k.Inv) : k.noteCheck.Inv where
  cntLegal := hk.cntLegal
  errChecked := fun _ => rfl
  einfoErr := hk.einfoErr
  einfoCnt := hk.einfoCnt
  fresh := hk.fresh
  oneByte := hk.oneByte

/-- Only a block that has executed a CHECK records a mismatch (R17), and EINFO is then kept or taken from CNT (R18). -/
theorem Block.Inv.raiseMismatch {k : Block} (hk : k.Inv) (hchk : k.chk = true) : (k.raise .crcMismatch).Inv where
  cntLegal := hk.cntLegal
  errChecked := fun _ => hchk
  einfoErr := fun _ => rfl
  einfoCnt := fun he => by
    rw [raiseMismatch_einfo] at he
    split at he
    · exact hk.einfoCnt he
    · exact (infoAvailable_eq_true _).mp he
  fresh := hk.fresh
  oneByte := hk.oneByte

theorem Block.Inv.raiseIllegal {k : Block} (hk : k.Inv) : (k.raise .illegalCommand).Inv where
  cntLegal := hk.cntLegal
  errChecked := hk.errChecked
  einfoErr := hk.einfoErr
  einfoCnt := hk.einfoCnt
  fresh := hk.fresh
  oneByte := hk.oneByte

theorem Block.Inv.blockEffect {k : Block} (hk : k.Inv) (i : Instr) : (blockEffect i k).Inv := by
  cases i with
  | nop => exact hk
  | init => exact .startFrame k
  | feed b => exact hk.feed b
  | check hi lo =>
    rcases blockEffect_check_cases hi lo k with ⟨-, h⟩ | ⟨-, h⟩ <;> rw [h]
    · exact hk.noteCheck
    · exact hk.noteCheck.raiseMismatch rfl

theorem Block.Inv.wordEffect {k : Block} (hk : k.Inv) (w : CmdWord) : (wordEffect w k).Inv := by
  cases hd : decode w with
  | command i => rw [wordEffect_of_command hd]; exact hk.blockEffect i
  | illegal r => rw [wordEffect_of_illegal hd]; exact hk.raiseIllegal

theorem step_keeps_block_inv {s t : State} (hs : s.block.Inv) (h : step s = .next t) : t.block.Inv := by
  rcases step_block_cases h with ⟨-, -, hb⟩ | ⟨-, hb⟩ | ⟨w, -, hb⟩ <;> rw [hb]
  · exact .reset
  · exact hs
  · exact hs.wordEffect w

/-- Settles O28: the registers' part by what writes them (`step_block_cases`), the part under reset by
`step_rst_cases`, and the part on `pc` by `step_hostFrame`. -/
theorem stepKeepsInvariant : Obligations.StepKeepsInvariant := by
  intro s t hs h
  refine ⟨step_keeps_block_inv hs.block h, fun hr => ?_, ?_⟩
  · rcases step_rst_cases h hr with hreset | ⟨hsr, hb, hf⟩
    · exact hreset
    · rw [hb, hf]
      exact hs.inReset hsr
  · obtain ⟨hprog, hpc | ⟨hpc, -, hlt⟩⟩ := step_hostFrame h <;> rw [hprog, hpc]
    · exact hs.pcInProgram
    · exact hlt

/-- Settles O30: `State.HostFrame` of every step. -/
theorem pcCountsAcceptedCommands : Obligations.PcCountsAcceptedCommands :=
  fun _ _ => step_hostFrame

end Sys2Proof.Machine
end

section
/-! SUPPORT. Which command writes which register, and which step changes ILL, ERR and EINFO. -/

namespace Sys2Proof.Machine

/-- Settles O32, command by command: NOP writes nothing, INIT may write every register named, FEED writes CRC, CNT and, by
CNT, SID or FC, and CHECK writes CHK. -/
theorem registerWriters : Obligations.RegisterWriters := by
  intro i s t h
  rw [exec_block h]
  cases i with
  | nop => simp
  | init => simp
  | feed b =>
    refine ⟨fun _ => .inr ⟨b, rfl⟩, fun hsid => .inr ⟨b, rfl, ?_⟩, fun hfc => .inr ⟨b, rfl, ?_⟩,
      fun _ => .inr ⟨b, rfl⟩, fun hchk => absurd rfl hchk⟩
    · by_cases h0 : s.block.cnt = 0#2
      · exact ⟨h0, if_pos h0⟩
      · exact absurd (if_neg h0) hsid
    · by_cases h1 : s.block.cnt = 1#2
      · exact ⟨h1, if_pos h1⟩
      · exact absurd (if_neg h1) hfc
  | check hi lo =>
    obtain ⟨hcrc, hsid, hfc, hcnt, hchk⟩ := blockEffect_check_frame hi lo s.block
    simp [hcrc, hsid, hfc, hcnt, hchk]

/-- Settles O34: reset clears ILL, no command writes it, and an illegal word sets it. -/
theorem illChangesOnlyByIllegalWordOrReset : Obligations.IllChangesOnlyByIllegalWordOrReset := by
  intro s t h hne
  rcases step_block_ne_cases Block.ill h hne with ⟨rest, hi, hb⟩ | ⟨w, i, -, -, hb⟩ | ⟨w, r, hc, hd, hb⟩
  · exact .inl ⟨by rw [hb]; rfl, rest, hi⟩
  · exact absurd (by rw [hb, blockEffect_ill]) hne
  · exact .inr ⟨by rw [hb]; rfl, w, r, hc, hd⟩

/-- Settles O35: reset clears ERR, a command changes it as `blockEffect_err_ne` says, and an illegal word keeps it. -/
theorem errChangesOnlyByMismatchInitOrReset : Obligations.ErrChangesOnlyByMismatchInitOrReset := by
  intro s t h hne
  rcases step_block_ne_cases Block.err h hne with ⟨rest, hi, hb⟩ | ⟨w, i, hc, hd, hb⟩ | ⟨w, r, -, -, hb⟩
  · exact .inl ⟨by rw [hb]; rfl, rest, hi⟩
  · rw [hb] at hne ⊢
    rcases blockEffect_err_ne hne with ⟨rfl, he⟩ | ⟨hi, lo, rfl, hcrc, he⟩
    · exact .inr (.inl ⟨he, w, hc, hd⟩)
    · exact .inr (.inr ⟨he, w, hi, lo, hc, hd, hcrc⟩)
  · exact absurd (by rw [hb]; rfl) hne

/-- Settles O36: reset clears EINFO, a command changes it as `blockEffect_einfo_ne` says, an illegal word keeps it, and the
value written is that of `blockEffect_check_einfo`. -/
theorem einfoWrittenByFirstMismatch : Obligations.EinfoWrittenByFirstMismatch := by
  constructor
  · intro s t h hne
    rcases step_block_ne_cases Block.einfo h hne with ⟨rest, hi, hb⟩ | ⟨w, i, hc, hd, hb⟩ | ⟨w, r, -, -, hb⟩
    · exact .inl ⟨by rw [hb]; rfl, rest, hi⟩
    · rw [hb] at hne ⊢
      rcases blockEffect_einfo_ne hne with ⟨rfl, he⟩ | ⟨hi, lo, rfl, h0, h1⟩
      · exact .inr (.inl ⟨he, w, hc, hd⟩)
      · exact .inr (.inr ⟨h0, h1, w, hi, lo, hc, hd⟩)
    · exact absurd (by rw [hb]; rfl) hne
  · intro hi lo s t h h0 h1
    rw [exec_block h] at h1 ⊢
    exact blockEffect_check_einfo h0 h1

end Sys2Proof.Machine
end

section
/-! SUPPORT. The opcode table and the decoder agree on which words are commands. -/

namespace Sys2Proof

/-- A word belongs to a row when each of its bytes does. -/
theorem holds_bytes (name : String) (op hi lo p q r x y z : Byte) :
    (⟨name, p ++ q ++ r, x ++ y ++ z⟩ : TableRow).holds (op ++ hi ++ lo) =
      decide (op &&& x = p ∧ hi &&& y = q ∧ lo &&& z = r) := by
  simp only [TableRow.holds, bytes_and, beq_eq_decide, bytes_inj]

/-- The rows of the table (R47 to R50), byte by byte. -/
theorem legalWord_bytes (op hi lo : Byte) : legalWord (op ++ hi ++ lo) = true ↔
    (op = 0x00#8 ∧ hi = 0#8 ∧ lo = 0#8) ∨ (op = 0x01#8 ∧ hi = 0#8 ∧ lo = 0#8) ∨ (op = 0x02#8 ∧ hi = 0#8) ∨
    op = 0x03#8 := by
  have hff (b : Byte) : b &&& 0xFF#8 = b := BitVec.and_allOnes
  have hnop := holds_bytes "NOP" op hi lo 0x00#8 0x00#8 0x00#8 0xFF#8 0xFF#8 0xFF#8
  have hinit := holds_bytes "INIT" op hi lo 0x01#8 0x00#8 0x00#8 0xFF#8 0xFF#8 0xFF#8
  have hfeed := holds_bytes "FEED" op hi lo 0x02#8 0x00#8 0x00#8 0xFF#8 0xFF#8 0x00#8
  have hcheck := holds_bytes "CHECK" op hi lo 0x03#8 0x00#8 0x00#8 0xFF#8 0x00#8 0x00#8
  simp only [hff, BitVec.and_zero] at hnop hinit hfeed hcheck
  have htable : opcodeTable =
    [⟨"NOP", 0x00#8 ++ 0x00#8 ++ 0x00#8, 0xFF#8 ++ 0xFF#8 ++ 0xFF#8⟩,
     ⟨"INIT", 0x01#8 ++ 0x00#8 ++ 0x00#8, 0xFF#8 ++ 0xFF#8 ++ 0xFF#8⟩,
     ⟨"FEED", 0x02#8 ++ 0x00#8 ++ 0x00#8, 0xFF#8 ++ 0xFF#8 ++ 0x00#8⟩,
     ⟨"CHECK", 0x03#8 ++ 0x00#8 ++ 0x00#8, 0xFF#8 ++ 0x00#8 ++ 0x00#8⟩] := by decide
  simp only [legalWord, htable, List.any, hnop, hinit, hfeed, hcheck]
  simp

/-- A word is legal exactly when it decodes to a command (R51, R53). -/
theorem legalWord_iff_decode (w : CmdWord) : legalWord w = true ↔ ∃ i, decode w = .command i := by
  rw [← bytes_of_word w, legalWord_bytes, decode_bytes]
  split_ifs <;> simp [*]

/-- The decoder's inverse on the words the encoder makes (R47 to R50). -/
theorem decode_encode (i : Instr) : decode (encode i) = .command i := by
  cases i with
  | nop => decide
  | init => decide
  | feed b => exact (decode_bytes 0x02#8 0x00#8 b).trans (by simp)
  | check hi lo => exact (decode_bytes 0x03#8 hi lo).trans (by simp)

end Sys2Proof
end

section
/-! SUPPORT. Lists of words: what they leave in ILL, and what INIT and FEEDs leave in SID, FC and CNT. -/

namespace Sys2Proof.Machine

theorem wordsEffect_nil (k : Block) : wordsEffect [] k = k := rfl

theorem wordsEffect_cons (w : CmdWord) (ws : List CmdWord) (k : Block) :
    wordsEffect (w :: ws) k = wordsEffect ws (wordEffect w k) := rfl

/-- The word of a command has that command's effect. -/
@[simp] theorem wordEffect_encode (i : Instr) : wordEffect (encode i) = blockEffect i :=
  wordEffect_of_command (decode_encode i)

/-- A word sets ILL exactly when it is no command word (R19, R51). -/
theorem wordEffect_ill (w : CmdWord) (k : Block) : (wordEffect w k).ill = (k.ill || !legalWord w) := by
  cases hd : decode w with
  | command i =>
    have hlegal : legalWord w = true := (legalWord_iff_decode w).mpr ⟨i, hd⟩
    simp [wordEffect_of_command hd, hlegal]
  | illegal r =>
    have hlegal : legalWord w = false := by
      rw [← Bool.not_eq_true, legalWord_iff_decode, hd]
      simp
    simp [wordEffect_of_illegal hd, hlegal]

theorem wordsEffect_ill (ws : List CmdWord) (k : Block) :
    (wordsEffect ws k).ill = (k.ill || ws.any fun w => !legalWord w) := by
  induction ws generalizing k with
  | nil => simp [wordsEffect_nil]
  | cons w ws ih => rw [wordsEffect_cons, ih, wordEffect_ill, List.any_cons, Bool.or_assoc]

/-- Settles O38, by induction over the words (`wordsEffect_ill`). -/
theorem illRecordsEveryIllegalWord : Obligations.IllRecordsEveryIllegalWord :=
  fun ws s => ⟨_, runWords_eq ws s, wordsEffect_ill ws s.block⟩

/-- Once two bytes are counted, FEEDs keep SID, FC and CNT (R13 to R15). -/
theorem wordsEffect_feeds_of_full {k : Block} (h : k.cnt = 2#2) (bs : List Byte) :
    (wordsEffect (bs.map fun b => encode (.feed b)) k).sid = k.sid ∧
    (wordsEffect (bs.map fun b => encode (.feed b)) k).fc = k.fc ∧
    (wordsEffect (bs.map fun b => encode (.feed b)) k).cnt = 2#2 := by
  induction bs generalizing k with
  | nil => exact ⟨rfl, rfl, h⟩
  | cons b bs ih =>
    have hcnt : (blockEffect (.feed b) k).cnt = 2#2 := by simp [h, nextCnt_eq]
    obtain ⟨hsid, hfc, hfull⟩ := ih hcnt
    rw [List.map_cons, wordsEffect_cons, wordEffect_encode, hsid, hfc]
    exact ⟨by simp [h], by simp [h], hfull⟩

/-- Settles O46: a body has no byte, one byte, or two bytes and a rest that `wordsEffect_feeds_of_full` covers. -/
theorem captureOfFirstBytes : Obligations.CaptureOfFirstBytes := by
  intro s bs
  refine ⟨_, runWords_eq _ s, ?_⟩
  rw [State.onBlock_block, wordsEffect_cons, wordEffect_encode]
  match bs with
  | [] => simp [wordsEffect_nil]
  | [a] => simp [wordsEffect_nil, wordsEffect_cons, nextCnt_eq]
  | a :: b :: rest =>
    rw [List.map_cons, List.map_cons, wordsEffect_cons, wordsEffect_cons, wordEffect_encode, wordEffect_encode]
    have hfull : (blockEffect (.feed b) (blockEffect (.feed a) (blockEffect .init s.block))).cnt = 2#2 := by
      simp [nextCnt_eq]
    obtain ⟨hsid, hfc, hcnt⟩ := wordsEffect_feeds_of_full hfull rest
    rw [hsid, hfc, hcnt]
    simp [nextCnt_eq]

end Sys2Proof.Machine
end

section
/-! SUPPORT. STATUS bit by bit (R20). -/

namespace Sys2Proof.Machine

/-- The flags of STATUS, from bit 0 up (R20). -/
theorem Block.status_flags (k : Block) :
    k.status.getLsbD 0 = k.chk ∧ k.status.getLsbD 1 = k.err ∧ k.status.getLsbD 2 = k.einfo ∧
    k.status.getLsbD 3 = k.ill := by
  simp only [status, BitVec.getLsbD_append]
  simp

/-- From bit 4 up STATUS is CNT, with 0 above it (R20). -/
theorem Block.status_getLsbD_add_four (k : Block) (n : Nat) : k.status.getLsbD (4 + n) = k.cnt.getLsbD n := by
  simp only [status, BitVec.getLsbD_append]
  rw [if_neg (by omega), if_neg (by omega), if_neg (by omega), if_neg (by omega),
    show 4 + n - 1 - 1 - 1 - 1 = n by omega]
  split
  · rfl
  · rw [BitVec.getLsbD_of_ge k.cnt n (by omega), BitVec.getLsbD_zero]

/-- Settles O23: the flags bit by bit, and CNT with the reserved bits above it. -/
theorem statusBits : Obligations.StatusBits := by
  intro k
  obtain ⟨hchk, herr, heinfo, hill⟩ := k.status_flags
  refine ⟨rfl, rfl, rfl, hchk, herr, heinfo, hill, ?_, ?_, by decide⟩
  · apply BitVec.eq_of_getLsbD_eq
    intro n hn
    rw [BitVec.getLsbD_extractLsb', decide_eq_true hn, Bool.true_and]
    exact k.status_getLsbD_add_four n
  · apply BitVec.eq_of_getLsbD_eq
    intro n hn
    rw [BitVec.getLsbD_extractLsb', decide_eq_true hn, Bool.true_and, show 6 + n = 4 + (2 + n) by omega,
      BitVec.getLsbD_zero]
    exact (k.status_getLsbD_add_four (2 + n)).trans (BitVec.getLsbD_of_ge k.cnt (2 + n) (by omega))

end Sys2Proof.Machine
end

section
/-! SUPPORT. What a command or a word leaves alone, and what its effect depends on (R32). -/

namespace Sys2Proof.Machine

/-- Settles O31: a command acts through the registers (`exec_eq`), and none writes ILL (`blockEffect_ill`). -/
theorem commandsChangeRegistersOnly : Obligations.CommandsChangeRegistersOnly :=
  fun i s => ⟨blockEffect i s.block, exec_eq i s, blockEffect_ill i s.block⟩

/-- Settles O33: a word's effect is the function `wordEffect` of the registers alone. -/
theorem effectDependsOnRegistersAlone : Obligations.EffectDependsOnRegistersAlone := by
  intro w s s' h
  refine ⟨wordEffect w s.block, runWord_eq w s, ?_⟩
  rw [h]
  exact runWord_eq w s'

end Sys2Proof.Machine
end

section
/-! SUPPORT. A host program run to its end, with no event listed at the port (R11, R34). -/

namespace Sys2Proof.Machine

@[simp] theorem State.onBlock_cmdReady (f : Block → Block) (s : State) : (s.onBlock f).cmdReady = s.cmdReady := rfl

@[simp] theorem State.advancePc_cmdReady (s : State) : s.advancePc.cmdReady = s.cmdReady := rfl

/-- A ready block with no event listed runs the host's next word, and `pc` moves past it (R11, R105). -/
theorem step_of_ready {s : State} {w : CmdWord} (hi : s.inputs = []) (hr : s.cmdReady = true)
    (hp : s.program[s.pc]? = some w) : step s = .next (s.advancePc.onBlock (wordEffect w)) := by
  obtain ⟨hf, hrst⟩ : s.inFlight = none ∧ s.rst = false := by simpa [State.cmdReady] using hr
  simp [step, portStep, issueNext, hi, hf, hrst, hp, runWord_eq]

/-- The words still to come, run one step each, have their effects in order. -/
theorem run_rest_of_program {s : State} {done todo : List CmdWord} (hi : s.inputs = []) (hr : s.cmdReady = true)
    (hprog : s.program = done ++ todo) (hpc : s.pc = done.length) :
    Sys2Proof.core.run todo.length s =
      .next (({ s with pc := s.pc + todo.length } : State).onBlock (wordsEffect todo)) := by
  induction todo generalizing s done with
  | nil => rfl
  | cons w ws ih =>
    have hw : s.program[s.pc]? = some w := by simp [hprog, hpc]
    have hrest := ih (s := s.advancePc.onBlock (wordEffect w)) (done := done ++ [w]) hi hr
      (by simp [hprog]) (by simp [hpc])
    rw [List.length_cons, run_succ (step_of_ready hi hr hw), hrest, Nat.add_comm ws.length 1, ← Nat.add_assoc]
    rfl

/-- Settles O25: `run_rest_of_program` gives the run's last state, which `runWords_eq` says the words give too. -/
theorem programRunsInOrder : Obligations.ProgramRunsInOrder :=
  fun _ _ todo hi hr hprog hpc => ⟨_, run_rest_of_program hi hr hprog hpc, rfl, runWords_eq todo _⟩

end Sys2Proof.Machine
end

section
/-! SUPPORT. Which frame may issue a word on a slot of the platform (R44). -/

namespace Sys2Proof.Machine

theorem Slot.mayIssue_init (slot : Slot) (frame : Nat) : slot.mayIssue frame (encode .init) = true := by
  simp [mayIssue, decode_encode]

theorem Slot.mayIssue_of_owner {slot : Slot} {frame : Nat} (h : slot.owner = some frame) (w : CmdWord) :
    slot.mayIssue frame w = true := by
  simp [mayIssue, h]

theorem Slot.mayIssue_of_other {slot : Slot} {mine other : Nat} {w : CmdWord} (h : slot.owner = some mine)
    (hne : other ≠ mine) (hw : decode w ≠ .command .init) : slot.mayIssue other w = false := by
  simp [mayIssue, h, hne.symm, hw]

/-- Settles O58: a word that is no INIT is refused to every frame but the owner, which is `other` after its INIT. -/
theorem interleavedFramesRefused : Obligations.InterleavedFramesRefused := by
  intro p k mine other w slot hslot hready howner hne hw
  have hother := Platform.issue_interleaved hslot hready (Slot.mayIssue_of_other howner hne hw)
  have hmine := Platform.issue_ready hslot hready (Slot.mayIssue_of_owner howner w)
  have hinit := Platform.issue_ready hslot hready (slot.mayIssue_init other)
  refine ⟨hother, ⟨_, hmine⟩, _, hinit, ?_⟩
  exact Platform.issue_interleaved (Platform.set_slot hslot _) hready (Slot.mayIssue_of_other rfl hne.symm hw)

end Sys2Proof.Machine
end

section
/-! SUPPORT. The encode path and the decode path of a frame (R39 to R43, R70, R73). -/

namespace Sys2Proof.Machine

/-- The registers, ILL aside, once INIT and the FEEDs of `body` have completed (R12 to R18). -/
structure Block.HoldsBody (k : Block) (body : List Byte) : Prop where
  crc : k.crc = compute body
  sid : k.sid = body.getD 0 0x00#8
  fc : k.fc = body.getD 1 0x00#8
  cnt : k.cnt.toNat = min body.length 2
  chk : k.chk = false
  err : k.err = false
  einfo : k.einfo = false

theorem map_encode_crcCommands (body : List Byte) :
    (crcCommands body).map encode = encode .init :: body.map fun b => encode (.feed b) := by
  simp [crcCommands, feedCommands]

/-- FEEDs fold their bytes into CRC in order, and write no flag (R62). -/
theorem wordsEffect_feeds_crc_flags (bs : List Byte) (k : Block) :
    (wordsEffect (bs.map fun b => encode (.feed b)) k).crc = crcFold k.crc bs ∧
    (wordsEffect (bs.map fun b => encode (.feed b)) k).chk = k.chk ∧
    (wordsEffect (bs.map fun b => encode (.feed b)) k).err = k.err ∧
    (wordsEffect (bs.map fun b => encode (.feed b)) k).einfo = k.einfo := by
  induction bs generalizing k with
  | nil => exact ⟨rfl, rfl, rfl, rfl⟩
  | cons b bs ih =>
    rw [List.map_cons, wordsEffect_cons, wordEffect_encode]
    exact ih (blockEffect (.feed b) k)

/-- What INIT and the FEEDs of a body leave in SID, FC and CNT: `captureOfFirstBytes` read at the registers. -/
theorem wordsEffect_crcCommands_capture (body : List Byte) (k : Block) :
    (wordsEffect ((crcCommands body).map encode) k).sid = body.getD 0 0x00#8 ∧
    (wordsEffect ((crcCommands body).map encode) k).fc = body.getD 1 0x00#8 ∧
    (wordsEffect ((crcCommands body).map encode) k).cnt.toNat = min body.length 2 := by
  obtain ⟨t, hrun, hcapture⟩ := captureOfFirstBytes { State.reset with block := k } body
  rw [← map_encode_crcCommands, runWords_eq] at hrun
  rw [← Host.Outcome.next.inj hrun] at hcapture
  exact hcapture

theorem wordsEffect_crcCommands_holdsBody (body : List Byte) (k : Block) :
    (wordsEffect ((crcCommands body).map encode) k).HoldsBody body := by
  obtain ⟨hsid, hfc, hcnt⟩ := wordsEffect_crcCommands_capture body k
  have hstart : wordsEffect ((crcCommands body).map encode) k =
      wordsEffect (body.map fun b => encode (.feed b)) k.startFrame := by
    rw [map_encode_crcCommands, wordsEffect_cons, wordEffect_encode, blockEffect_init]
  obtain ⟨hcrc, hchk, herr, heinfo⟩ := wordsEffect_feeds_crc_flags body k.startFrame
  rw [← hstart] at hcrc hchk herr heinfo
  exact ⟨hcrc, hsid, hfc, hcnt, hchk, herr, heinfo⟩

/-- The decode path ends with the CHECK of the trailer (R40). -/
theorem wordsEffect_checkedCommands (body : List Byte) (u v : Byte) (k : Block) :
    wordsEffect ((checkedCommands body u v).map encode) k =
      blockEffect (.check v u) (wordsEffect ((crcCommands body).map encode) k) := by
  rw [checkedCommands, List.map_append, wordsEffect_append, List.map_singleton, wordsEffect_cons, wordsEffect_nil,
    wordEffect_encode]

/-- CHECK of the body's own trailer reports OK (R71, R73). -/
theorem Block.HoldsBody.check_match {k : Block} {body : List Byte} {hi lo : Byte} (hk : k.HoldsBody body)
    (h : compute body = trailerValue hi lo) :
    (blockEffect (.check hi lo) k).err = false ∧ (blockEffect (.check hi lo) k).report = .ok := by
  rw [blockEffect_check_match (hk.crc.trans h)]
  simp [report, hk.err]

/-- CHECK of any other trailer records the mismatch, and EINFO when the body has two bytes (R18, R71). -/
theorem Block.HoldsBody.check_mismatch {k : Block} {body : List Byte} {hi lo : Byte} (hk : k.HoldsBody body)
    (h : compute body ≠ trailerValue hi lo) :
    (blockEffect (.check hi lo) k).err = true ∧
    (blockEffect (.check hi lo) k).report =
      if 2 ≤ body.length then .crcError (body.getD 0 0x00#8) (body.getD 1 0x00#8) else .crcErrorGeneric := by
  have hcnt : k.cnt = 2#2 ↔ 2 ≤ body.length := by
    rw [← BitVec.toNat_inj, hk.cnt]
    exact min_eq_right_iff
  rw [blockEffect_check_mismatch (by rw [hk.crc]; exact h)]
  simp [report, hk.err, hk.sid, hk.fc, hcnt]

theorem verifyCommands_append (body : List Byte) (u v : Byte) :
    verifyCommands (body ++ [u, v]) = some (checkedCommands body u v) := by
  rw [verifyCommands, splitTrailer_append, Option.map_some]

theorem decodeResult_of_err_false {k : Block} (h : k.err = false) (body : List Byte) (u v : Byte) :
    decodeResult (body ++ [u, v]) k = .accepted body := by
  simp [decodeResult, splitTrailer_append, Block.mayInterpret, h]

theorem decodeResult_of_err_true {k : Block} (h : k.err = true) (body : List Byte) (u v : Byte) :
    decodeResult (body ++ [u, v]) k = .crcError k.report := by
  simp [decodeResult, splitTrailer_append, Block.mayInterpret, h]

/-- Settles O48: the registers hold the body before CHECK, whose two cases are `check_match` and `check_mismatch`. -/
theorem decodePathVerdict : Obligations.DecodePathVerdict := by
  refine ⟨fun s body u v => ⟨verifyCommands_append body u v, _, runWords_eq _ s, ?_⟩, fun buffer h => ?_⟩
  · have hk := wordsEffect_crcCommands_holdsBody body s.block
    rw [State.onBlock_block, wordsEffect_checkedCommands]
    obtain ⟨-, -, -, -, hchk⟩ := blockEffect_check_frame v u (wordsEffect ((crcCommands body).map encode) s.block)
    refine ⟨hchk, ?_⟩
    by_cases h : compute body = v ++ u
    · obtain ⟨herr, hreport⟩ := hk.check_match h
      refine ⟨by simp [herr, h], fun _ => ⟨hreport, ?_⟩, fun _ hne => absurd h hne⟩
      exact decodeResult_of_err_false herr body u v
    · obtain ⟨herr, hreport⟩ := hk.check_mismatch h
      refine ⟨by simp [herr, h], fun he => absurd he h, ?_⟩
      rintro r - rfl
      rw [decodeResult_of_err_true herr, hreport]
      rcases body with _ | ⟨b₀, _ | ⟨b₁, rest⟩⟩ <;> simp
  · rw [verifyCommands, splitTrailer_short h, Option.map_none]

/-- Settles O49: CRC is `compute` of the body, and the host sends its low byte first. -/
theorem encodePathSendsTrailer : Obligations.EncodePathSendsTrailer := by
  intro s body
  refine ⟨_, runWords_eq _ s, ?_⟩
  have hcrc := (wordsEffect_crcCommands_holdsBody body s.block).crc
  exact congrArg (sentBytes true body) hcrc

/-- Settles O50: the trailer sent (`encodePathSendsTrailer`) reads back as the CRC, so the decode path finds a match
(`decodePathVerdict`). -/
theorem encodedFrameIsAccepted : Obligations.EncodedFrameIsAccepted := by
  intro s s' t body h
  obtain ⟨t', h', hsent⟩ := encodePathSendsTrailer s body
  obtain rfl := Host.Outcome.next.inj (h.symm.trans h')
  obtain ⟨hverdict, -⟩ := decodePathVerdict
  obtain ⟨hcommands, u, hu, -, -, hmatch, -⟩ := hverdict s' body (crcLow (compute body)) (crcHigh (compute body))
  obtain ⟨-, haccepted⟩ := hmatch (trailerValue_high_low (compute body)).symm
  rw [hsent]
  exact ⟨_, u, hcommands, hu, haccepted⟩

end Sys2Proof.Machine
end

section
/-! SUPPORT. The encoder and the decoder are inverse (R47 to R53), and the words of each command by match and mask. -/

namespace Sys2Proof

/-- A FEED word is 0x0200 and its byte (R49). -/
theorem encode_feed (b : Byte) : encode (.feed b) = 0x0200#16 ++ b := rfl

/-- Settles O1: `decode_encode`, which splits on the command and reads its word byte by byte. -/
theorem decodeOfEncode : Obligations.DecodeOfEncode :=
  fun i _ => decode_encode i

/-- Settles O2: the four cases of `decode_bytes` in which the word is a command. -/
theorem encodeOfDecode : Obligations.EncodeOfDecode := by
  intro w i h
  rw [← bytes_of_word w] at h ⊢
  generalize opField w = op, hiField w = hi, loField w = lo at h ⊢
  rw [decode_bytes] at h
  split_ifs at h with hnop hzero hinit hzero hfeed hzero hcheck <;> obtain rfl := Decoded.command.inj h
  · obtain ⟨rfl, rfl⟩ := hzero
    rw [hnop]; rfl
  · obtain ⟨rfl, rfl⟩ := hzero
    rw [hinit]; rfl
  · rw [hfeed, hzero]; rfl
  · rw [hcheck]; rfl

/-- Each command has exactly one word, its encoding (R47 to R50, R53). -/
theorem decode_eq_command_iff {w : CmdWord} {i : Instr} : decode w = .command i ↔ encode i = w := by
  constructor
  · exact encodeOfDecode w i
  · rintro rfl
    exact decode_encode i

theorem word_of_toNat (w : CmdWord) : BitVec.ofNat 24 w.toNat = w := by
  rw [BitVec.ofNat_toNat, BitVec.setWidth_eq]

theorem command?_isSome_iff (d : Decoded) : d.command?.isSome = true ↔ ∃ i, d = .command i := by
  cases d <;> simp [Decoded.command?]

/-- A word under a mask, byte by byte. -/
theorem masked_eq_iff (w : CmdWord) (x y z p q r : Byte) :
    w &&& (x ++ y ++ z : CmdWord) = p ++ q ++ r ↔
      opField w &&& x = p ∧ hiField w &&& y = q ∧ loField w &&& z = r := by
  conv_lhs => rw [← bytes_of_word w, bytes_and, bytes_inj]

theorem byte_and_ff (b : Byte) : b &&& 0xFF#8 = b := BitVec.and_allOnes

/-- The FEED row's mask keeps the two high bytes (R49). -/
theorem feed_masked_iff (w : CmdWord) :
    w &&& 0xFFFF00#24 = 0x020000#24 ↔ opField w = 0x02#8 ∧ hiField w = 0x00#8 := by
  simpa [byte_and_ff] using masked_eq_iff w 0xFF#8 0xFF#8 0x00#8 0x02#8 0x00#8 0x00#8

/-- The CHECK row's mask keeps the high byte (R50). -/
theorem check_masked_iff (w : CmdWord) : w &&& 0xFF0000#24 = 0x030000#24 ↔ opField w = 0x03#8 := by
  simpa [byte_and_ff] using masked_eq_iff w 0xFF#8 0x00#8 0x00#8 0x03#8 0x00#8 0x00#8

/-- The fields of a word that decodes to FEED (R49). -/
theorem decode_feed_iff {w : CmdWord} {b : Byte} :
    decode w = .command (.feed b) ↔ opField w = 0x02#8 ∧ hiField w = 0x00#8 ∧ loField w = b := by
  conv_lhs => rw [decode_eq_command_iff, eq_comm, ← bytes_of_word w]
  exact bytes_inj _ _ _ 0x02#8 0x00#8 b

/-- The fields of a word that decodes to CHECK (R50). -/
theorem decode_check_iff {w : CmdWord} {hi lo : Byte} :
    decode w = .command (.check hi lo) ↔ opField w = 0x03#8 ∧ hiField w = hi ∧ loField w = lo := by
  conv_lhs => rw [decode_eq_command_iff, eq_comm, ← bytes_of_word w]
  exact bytes_inj _ _ _ 0x03#8 hi lo

/-- Settles O3: NOP and INIT have one word each, and the FEED and CHECK rows are conditions on the fields. -/
theorem commandWordRanges : Obligations.CommandWordRanges := by
  have hall (w : CmdWord) : w &&& 0xFFFFFF#24 = w := BitVec.and_allOnes
  refine ⟨fun w => ?_, fun w => ?_, fun w => ?_, fun w b h => ?_, fun w => ?_, fun w hi lo h => ?_⟩
  · rw [hall, decode_eq_command_iff, eq_comm]; rfl
  · rw [hall, decode_eq_command_iff, eq_comm]; rfl
  · simp [decode_feed_iff, feed_masked_iff]
  · obtain ⟨-, -, hlo⟩ := decode_feed_iff.mp h
    exact hlo.symm
  · simp [decode_check_iff, check_masked_iff]
  · obtain ⟨-, hhi, hlo⟩ := decode_check_iff.mp h
    exact ⟨hhi.symm, hlo.symm⟩

/-- A stored word, read back, is the word (R56). -/
theorem loadProgram_storeProgram (ws : List CmdWord) : loadProgram (storeProgram ws) = some ws := by
  induction ws with
  | nil => rfl
  | cons w ws ih =>
    rw [storeProgram] at ih
    simp [storeProgram, storeWord, loadProgram, ih, bytes_of_word]

theorem storeProgram_length (ws : List CmdWord) : (storeProgram ws).length = 3 * ws.length := by
  simp [storeProgram, storeWord, List.length_flatMap, Nat.mul_comm]

/-- Settles O6: the layout is the definition's, and the words read back by induction (`loadProgram_storeProgram`). -/
theorem storedProgramReadsBack : Obligations.StoredProgramReadsBack :=
  fun ws => ⟨rfl, fun _ => rfl, storeProgram_length ws, loadProgram_storeProgram ws⟩

end Sys2Proof
end

section
/-! SUPPORT. The illegal words (R51): which they are, what they do, and how many words are left to the commands. -/

namespace Sys2Proof

/-- The bullets of R51, in the fields of the word. -/
theorem decode_illegal_iff (w : CmdWord) : (∃ r, decode w = .illegal r) ↔
    (0x04 ≤ (opField w).toNat ∨ (opField w = 0x00#8 ∧ immField w ≠ 0#16) ∨
      (opField w = 0x01#8 ∧ immField w ≠ 0#16) ∨ (opField w = 0x02#8 ∧ hiField w ≠ 0#8)) := by
  have hop : 0x04 ≤ (opField w).toNat ↔
      opField w ≠ 0x00#8 ∧ opField w ≠ 0x01#8 ∧ opField w ≠ 0x02#8 ∧ opField w ≠ 0x03#8 := by bv_omega
  rw [hop, decode]
  split_ifs <;> simp [*]

theorem toNat_append_byte {m : Nat} (a : BitVec m) (b : Byte) : (a ++ b).toNat = 0x100 * a.toNat + b.toNat := by
  rw [BitVec.toNat_append, ← Nat.shiftLeft_add_eq_or_of_lt b.isLt, Nat.shiftLeft_eq, Nat.mul_comm]

theorem encode_feed_toNat (b : Byte) : (encode (.feed b)).toNat = 0x20000 + b.toNat :=
  toNat_append_byte (0x02#8 ++ 0x00#8) b

theorem encode_check_toNat (hi lo : Byte) :
    (encode (.check hi lo)).toNat = 0x30000 + 0x100 * hi.toNat + lo.toNat := by
  rw [encode, toNat_append_byte, toNat_append_byte, Nat.mul_add]
  rfl

/-- The numbers of the command words: one NOP, one INIT, 256 FEEDs and 65536 CHECKs (R47 to R50). -/
def commandNumbers : Finset Nat :=
  {0x000000, 0x010000} ∪ Finset.Ico 0x020000 0x020100 ∪ Finset.Ico 0x030000 0x040000

theorem mem_commandNumbers {n : Nat} : n ∈ commandNumbers ↔
    n = 0x000000 ∨ n = 0x010000 ∨ (0x020000 ≤ n ∧ n < 0x020100) ∨ (0x030000 ≤ n ∧ n < 0x040000) := by
  simp only [commandNumbers, Finset.mem_union, Finset.mem_insert, Finset.mem_singleton, Finset.mem_Ico, or_assoc]

theorem mem_commandNumbers_iff_encode {n : Nat} : n ∈ commandNumbers ↔ ∃ i, (encode i).toNat = n := by
  rw [mem_commandNumbers]
  constructor
  · rintro (rfl | rfl | ⟨hge, hlt⟩ | ⟨hge, hlt⟩)
    · exact ⟨.nop, rfl⟩
    · exact ⟨.init, rfl⟩
    · refine ⟨.feed (BitVec.ofNat 8 (n - 0x020000)), ?_⟩
      rw [encode_feed_toNat, BitVec.toNat_ofNat]
      omega
    · refine ⟨.check (BitVec.ofNat 8 ((n - 0x030000) / 0x100)) (BitVec.ofNat 8 (n - 0x030000)), ?_⟩
      rw [encode_check_toNat, BitVec.toNat_ofNat, BitVec.toNat_ofNat]
      omega
  · rintro ⟨i, rfl⟩
    cases i with
    | nop => exact .inl rfl
    | init => exact .inr (.inl rfl)
    | feed b =>
      have hb := b.isLt
      rw [encode_feed_toNat]
      omega
    | check hi lo =>
      have hhi := hi.isLt
      have hlo := lo.isLt
      rw [encode_check_toNat]
      omega

theorem commandNumbers_card : commandNumbers.card = 65794 := by
  have hfeed : Disjoint ({0x000000, 0x010000} : Finset Nat) (Finset.Ico 0x020000 0x020100) := by
    simp [Finset.disjoint_left]
  have hcheck : Disjoint ({0x000000, 0x010000} ∪ Finset.Ico 0x020000 0x020100) (Finset.Ico 0x030000 0x040000) := by
    simp only [Finset.disjoint_left, Finset.mem_union, Finset.mem_insert, Finset.mem_singleton, Finset.mem_Ico]
    omega
  rw [commandNumbers, Finset.card_union_of_disjoint hcheck, Finset.card_union_of_disjoint hfeed, Nat.card_Ico,
    Nat.card_Ico]
  rfl

/-- The numbers below 2^24 that decode to a command are the encodings' numbers. -/
theorem filter_isSome_eq_commandNumbers :
    ((Finset.range (2 ^ 24)).filter fun n => (decode (BitVec.ofNat 24 n)).command?.isSome = true) =
      commandNumbers := by
  ext n
  simp only [Finset.mem_filter, Finset.mem_range, command?_isSome_iff, decode_eq_command_iff,
    mem_commandNumbers_iff_encode]
  constructor
  · rintro ⟨hn, i, hi⟩
    exact ⟨i, by rw [hi, BitVec.toNat_ofNat, Nat.mod_eq_of_lt hn]⟩
  · rintro ⟨i, rfl⟩
    exact ⟨(encode i).isLt, i, (word_of_toNat _).symm⟩

end Sys2Proof

namespace Sys2Proof.Machine

/-- A word that is no command writes ILL <- 1 and nothing else (R81). -/
theorem runWord_of_illegal {w : CmdWord} {r : IllegalReason} (h : decode w = .illegal r) (s : State) :
    runWord w s = .next { s with block := { s.block with ill := true } } := by
  rw [runWord_eq, wordEffect_of_illegal h]; rfl

/-- Settles O4: the bullets (`decode_illegal_iff`), the effect (`runWord_of_illegal`) and the count
(`commandNumbers_card`). -/
theorem illegalWordsOfRule51 : Obligations.IllegalWordsOfRule51 := by
  refine ⟨decode_illegal_iff, fun w r s h => runWord_of_illegal h s, ?_⟩
  rw [filter_isSome_eq_commandNumbers, commandNumbers_card]

end Sys2Proof.Machine
end

section
/-! SUPPORT. The host's placing of a word for the next step (R45, R53). -/

namespace Sys2Proof.Machine

/-- A word's own 24 bits place that word. -/
theorem State.withFetchWord_toNat (s : State) (w : CmdWord) : s.withFetchWord 24 w.toNat = s.presentWord w := by
  rw [withFetchWord, Nat.mod_eq_of_lt w.isLt, word_of_toNat]

theorem decodeTableWord_toNat (w : CmdWord) : decodeTableWord 24 w.toNat = (decode w).command? := by
  rw [decodeTableWord, if_pos le_rfl, Nat.mod_eq_of_lt w.isLt, word_of_toNat]

/-- Settles O26: the placed word stands at P[pc] (`placeWord_get`) of a ready block (`step_of_ready`). -/
theorem placedWordRunsNext : Obligations.PlacedWordRunsNext := by
  intro s w i h
  rw [State.withFetchWord_toNat, decodeTableWord_toNat, h]
  refine ⟨?_, rfl, rfl⟩
  rw [step_of_ready (w := w) rfl rfl (placeWord_get _ _ _), wordEffect_of_command h, exec_eq]
  rfl

end Sys2Proof.Machine
end

section
/-! SUPPORT. The assembler: each line with its operands in range, and out of range (R54, R55). -/

namespace Sys2Proof.Machine

theorem inRange_of_lt {width n : Nat} (h : n < 2 ^ width) : inRange width n = .ok (BitVec.ofNat width n) :=
  if_pos h

theorem inRange_of_le {width n : Nat} (h : 2 ^ width ≤ n) : inRange width n = .error .outOfRange :=
  if_neg (Nat.not_lt.mpr h)

/-- A CHECK word of the halves of a value is 0x03 and the value (R50, R54). -/
theorem encode_check_high_low (v : Crc) : encode (.check (crcHigh v) (crcLow v)) = 0x03#8 ++ v := by
  rw [encode, BitVec.append_assoc, ← trailerValue, trailerValue_high_low]
  rfl

theorem assembleLine_checkb_toNat (lo hi : Byte) :
    assembleLine (.checkb lo.toNat hi.toNat) = .ok [encode (.check hi lo)] := by
  simp [assembleLine]

theorem assembleLine_checkb_outOfRange {lo hi : Nat} (h : 0xFF < lo ∨ 0xFF < hi) :
    assembleLine (.checkb lo hi) = .error .outOfRange := by
  rcases h with h | h
  · simp [assembleLine, inRange_of_le (width := 8) h]
  · rcases inRange_cases 8 lo with ⟨-, e⟩ | ⟨-, e⟩ <;> simp [assembleLine, e, inRange_of_le (width := 8) h]

theorem withBytes_toNat (bs : List Byte) (f : List Byte → List Instr) :
    withBytes (bs.map (·.toNat)) f = .ok (wordsOf (f bs)) := by
  simp [withBytes, Except.map]

theorem withBytes_outOfRange {ns : List Nat} (h : ∃ n ∈ ns, 0xFF < n) (f : List Byte → List Instr) :
    withBytes ns f = .error .outOfRange := by
  simp [withBytes, bytesInRange_outOfRange h, Except.map]

/-- Settles O55: each number is in range or not (`inRange_of_lt`, `inRange_of_le`), and one byte operand out of range
is enough (`bytesInRange_outOfRange`). -/
theorem assembledLines : Obligations.AssembledLines := by
  refine ⟨rfl, rfl, fun n h => ?_, fun n h => ?_, fun n h => ?_, fun n h => ?_, assembleLine_checkb_toNat,
    fun lo hi h => assembleLine_checkb_outOfRange h, fun n h => ?_, fun n h => ?_, fun ns h => ?_⟩
  · rw [assembleLine, inRange_of_lt (by omega), Except.map, encode_feed]
  · rw [assembleLine, inRange_of_le h, Except.map]
  · rw [assembleLine, inRange_of_lt (by omega), Except.map, encode_check_high_low]
  · rw [assembleLine, inRange_of_le h, Except.map]
  · rw [assembleLine, inRange_of_lt (by omega), Except.map]
  · rw [assembleLine, inRange_of_le h, Except.map]
  · refine ⟨withBytes_outOfRange h _, withBytes_outOfRange h _, ?_, withBytes_outOfRange h _⟩
    simp only [assembleLine, bytesInRange_outOfRange h]

theorem wordsOf_feedCommands (bs : List Byte) : wordsOf (feedCommands bs) = bs.map fun b => 0x0200#16 ++ b :=
  List.map_map

theorem wordsOf_crcCommands (bs : List Byte) :
    wordsOf (crcCommands bs) = 0x010000#24 :: bs.map fun b => 0x0200#16 ++ b :=
  map_encode_crcCommands bs

theorem wordsOf_checkedCommands (bs : List Byte) (u v : Byte) :
    wordsOf (checkedCommands bs u v) =
      0x010000#24 :: (bs.map fun b => 0x0200#16 ++ b) ++ [0x03#8 ++ v ++ u] := by
  rw [checkedCommands, wordsOf, List.map_append, ← wordsOf, wordsOf_crcCommands]
  rfl

/-- Settles O56: byte operands are in range (`bytesInRange_toNat`), and VERIFY's last two are its trailer
(`verifyCommands_append`). -/
theorem pseudoInstructionExpansions : Obligations.PseudoInstructionExpansions := by
  intro bs
  have hcrc := withBytes_toNat bs crcCommands
  have hfeeds := withBytes_toNat bs feedCommands
  rw [wordsOf_crcCommands] at hcrc
  rw [wordsOf_feedCommands] at hfeeds
  refine ⟨hcrc, hfeeds, hcrc, fun u v => ?_⟩
  simp only [assembleLine, bytesInRange_toNat, verifyCommands_append, wordsOf_checkedCommands]

end Sys2Proof.Machine
end

section
/-! SUPPORT. The control commands NOP and INIT (R57, R58): their results, and the words of their ops that are illegal. -/

namespace Sys2Proof

/-- Of the words of one op, only the one with two zero bytes has a zero operand (R46). -/
theorem immField_ne_zero {w : CmdWord} {op : Byte} (hop : opField w = op) (hne : w ≠ op ++ 0x00#8 ++ 0x00#8) :
    immField w ≠ 0#16 := by
  rw [immField_eq, Ne, pair_eq_zero]
  rintro ⟨hhi, hlo⟩
  exact hne (by rw [← bytes_of_word w, hop, hhi, hlo])

end Sys2Proof

namespace Sys2Proof.Machine

/-- Settles O10: NOP's effect on the registers is the identity (`exec_eq`), and every other word of its op has a nonzero
operand. -/
theorem nopResult : Obligations.NopResult :=
  ⟨rfl, fun s => exec_eq .nop s,
    fun w hop hne => (decode_illegal_iff w).mpr (.inr (.inl ⟨hop, immField_ne_zero hop hne⟩))⟩

/-- What INIT writes depends on ILL alone, which it keeps (R58). -/
theorem Block.startFrame_startFrame (k : Block) : k.startFrame.startFrame = k.startFrame := rfl

/-- A second INIT changes nothing (R58). -/
theorem exec_init_of_exec_init {s t : State} (h : exec .init s = .next t) : exec .init t = .next t := by
  rw [exec_eq] at h
  obtain rfl := Host.Outcome.next.inj h
  simp only [exec_eq, blockEffect, State.onBlock_onBlock, Block.startFrame_startFrame]

/-- Settles O11: INIT acts on the registers by `Block.startFrame` (`exec_eq`), which is idempotent, and every other word
of its op has a nonzero operand. -/
theorem initResult : Obligations.InitResult :=
  ⟨rfl, fun s => exec_eq .init s, fun _ _ => exec_init_of_exec_init,
    fun w hop hne => (decode_illegal_iff w).mpr (.inr (.inr (.inl ⟨hop, immField_ne_zero hop hne⟩)))⟩

end Sys2Proof.Machine
end

section
/-! SUPPORT. The CRC update (R61): its linearity (R65), and the shift, table and parallel forms that follow from it (R62,
R66, R67). -/

namespace Sys2Proof.Machine

/-- The loop of the pseudocode, with any number of turns, iterates `crcShift` (R61). -/
theorem repeat_crcShift_eq_foldl (n : Nat) (x : Crc) :
    Nat.repeat crcShift n x = (List.range n).foldl (fun c _ => crcShift c) x := by
  induction n with
  | zero => rfl
  | succ n ih => rw [Nat.repeat, ih, List.range_succ, List.foldl_append]; rfl

/-- Settles O40: the update is eight iterations (`repeat_crcShift_eq_foldl`), each the body of the loop. -/
theorem crcUpdateIsBitSerial : Obligations.CrcUpdateIsBitSerial :=
  fun c b => repeat_crcShift_eq_foldl 8 (c ^^^ zext16 b)

theorem repeat_crcShift_xor (n : Nat) (x y : Crc) :
    Nat.repeat crcShift n (x ^^^ y) = Nat.repeat crcShift n x ^^^ Nat.repeat crcShift n y := by
  induction n with
  | zero => rfl
  | succ n ih => simp only [Nat.repeat, ih, crcShift_xor]

/-- The update is linear over GF(2) in the CRC and the byte together (R65). -/
theorem crcUpdate_xor (c₁ c₂ : Crc) (b₁ b₂ : Byte) :
    crcUpdate (c₁ ^^^ c₂) (b₁ ^^^ b₂) = crcUpdate c₁ b₁ ^^^ crcUpdate c₂ b₂ := by
  have harg : c₁ ^^^ c₂ ^^^ zext16 (b₁ ^^^ b₂) = (c₁ ^^^ zext16 b₁) ^^^ (c₂ ^^^ zext16 b₂) := by
    rw [zext16, BitVec.setWidth_xor, ← zext16, ← zext16]
    ac_rfl
  rw [crcUpdate, harg, repeat_crcShift_xor, ← crcUpdate, ← crcUpdate]

@[simp] theorem crcUpdate_zero : crcUpdate 0x0000#16 0x00#8 = 0x0000#16 := by decide

/-- Settles O41: `crcUpdate_xor`, from the linearity of one iteration (`crcShift_xor`). -/
theorem crcUpdateIsLinear : Obligations.CrcUpdateIsLinear :=
  ⟨crcUpdate_xor, crcUpdate_zero⟩

/-- While only zeros are shifted out, the iterations are plain shifts. -/
theorem repeat_crcShift_of_low_zero {n : Nat} {x : Crc} (h : ∀ k < n, x.getLsbD k = false) :
    Nat.repeat crcShift n x = x >>> n := by
  induction n with
  | zero => simp [Nat.repeat]
  | succ n ih =>
    have hbit : (x >>> n).getLsbD 0 = false := by simpa using h n n.lt_succ_self
    rw [Nat.repeat, ih fun k hk => h k (Nat.lt_succ_of_lt hk), crcShift, hbit, if_neg Bool.false_ne_true,
      BitVec.shiftRight_add]

/-- The update by the CRC's own low byte clears that byte first, so it is a shift (R62). -/
theorem crcUpdate_crcLow (c : Crc) : crcUpdate c (crcLow c) = c >>> 8 := by
  have hlow : ∀ k < 8, (c ^^^ zext16 (crcLow c)).getLsbD k = false := by
    intro k hk
    simp [zext16, crcLow, hk, Nat.lt_trans hk]
  have hhigh : zext16 (crcLow c) >>> 8 = 0x0000#16 := by
    apply BitVec.eq_of_getLsbD_eq
    intro k _
    simp [zext16, crcLow]
  rw [crcUpdate, repeat_crcShift_of_low_zero hlow, BitVec.ushiftRight_xor_distrib, hhigh, BitVec.xor_zero]

/-- Settles O15: `crcUpdate_crcLow`, read at the state FEED answers. -/
theorem feedOfLowByteShifts : Obligations.FeedOfLowByteShifts := by
  refine ⟨?_, crcUpdate_zero⟩
  rintro s b rfl
  exact ⟨_, exec_eq _ s, crcUpdate_crcLow s.block.crc⟩

theorem crcLow_xor_zext16 (c : Crc) (b : Byte) : crcLow (c ^^^ zext16 b) = crcLow c ^^^ b := by
  apply BitVec.eq_of_getLsbD_eq
  intro k hk
  simp [crcLow, zext16, hk, Nat.lt_trans hk]

/-- The update is a shift by one byte and the update of zero by the byte left over: `b` is the CRC's low byte, which only
shifts, XOR the rest (R66). -/
theorem crcUpdate_eq_shift_xor (c : Crc) (b : Byte) :
    crcUpdate c b = (c >>> 8) ^^^ crcUpdate 0x0000#16 (crcLow (c ^^^ zext16 b)) := by
  calc crcUpdate c b
      = crcUpdate (c ^^^ 0x0000#16) (crcLow c ^^^ (crcLow c ^^^ b)) := by
        rw [BitVec.xor_zero, ← BitVec.xor_assoc, BitVec.xor_self, BitVec.zero_xor]
    _ = (c >>> 8) ^^^ crcUpdate 0x0000#16 (crcLow (c ^^^ zext16 b)) := by
        rw [crcUpdate_xor, crcUpdate_crcLow, crcLow_xor_zext16]

/-- The table of 95_test_vectors.md, entry by entry (R66). -/
theorem tableT_getElem? (n : Byte) : tableT[n.toNat]? = some (crcUpdate 0x0000#16 n) := by
  revert n; decide +kernel

theorem crcUpdateTable_eq (c : Crc) (b : Byte) : crcUpdateTable c b = crcUpdate c b := by
  rw [crcUpdateTable, List.getD_eq_getElem?_getD, tableT_getElem?, Option.getD_some, ← crcLow,
    ← crcUpdate_eq_shift_xor]

/-- Settles O42: the table form is `crcUpdate_eq_shift_xor`, and the entries are `tableT_getElem?`. -/
theorem crcUpdateTableForm : Obligations.CrcUpdateTableForm :=
  ⟨crcUpdate_eq_shift_xor, tableT_getElem?, crcUpdateTable_eq⟩

theorem crcUpdateParallel_getLsbD (c : Crc) (b : Byte) {i : Nat} (hi : i < 16) :
    (crcUpdateParallel c b).getLsbD i = parallelBit c b i := by
  simp [crcUpdateParallel, hi]

/-- The equations of R67 split as the update does: a shift by one byte, and the equations of zero. -/
theorem parallelBit_eq_xor_shift (c : Crc) (b : Byte) {i : Nat} (hi : i < 16) :
    parallelBit c b i = (parallelBit 0x0000#16 (crcLow (c ^^^ zext16 b)) i ^^ (c >>> 8).getLsbD i) := by
  interval_cases i <;> simp [parallelBit, crcLow, zext16]

/-- The equations of R67 on a zero CRC. -/
theorem crcUpdateParallel_zero (d : Byte) : crcUpdateParallel 0x0000#16 d = crcUpdate 0x0000#16 d := by
  revert d; decide +kernel

/-- Settles O43: both forms are a shift (`parallelBit_eq_xor_shift`, `crcUpdate_eq_shift_xor`) and the update of zero by
the byte left over, on which they agree (`crcUpdateParallel_zero`). -/
theorem crcUpdateParallelForm : Obligations.CrcUpdateParallelForm := by
  intro c b
  apply BitVec.eq_of_getLsbD_eq
  intro i hi
  rw [crcUpdateParallel_getLsbD c b hi, parallelBit_eq_xor_shift c b hi, ← crcUpdateParallel_getLsbD _ _ hi,
    crcUpdateParallel_zero, ← BitVec.getLsbD_xor, BitVec.xor_comm, ← crcUpdate_eq_shift_xor]

end Sys2Proof.Machine
end

section
/-! SUPPORT. `compute` over lists of bytes (R63, R64, R68), and FEED, the command that folds them in (R62). -/

namespace Sys2Proof.Machine

theorem compute_append (as bs : List Byte) : compute (as ++ bs) = crcFold (compute as) bs :=
  crcFold_append initV as bs

/-- A CRC's own trailer shifts out its low byte, then its high byte. -/
theorem crcFold_trailerBytes (c : Crc) : crcFold c (trailerBytes c) = 0x0000#16 := by
  have hhigh : crcLow (c >>> 8) = crcHigh c := by
    apply BitVec.eq_of_getLsbD_eq
    intro k _
    simp [crcLow, crcHigh]
  calc crcFold c (trailerBytes c)
      = crcUpdate (crcUpdate c (crcLow c)) (crcHigh c) := rfl
    _ = c >>> 8 >>> 8 := by rw [crcUpdate_crcLow, ← hhigh, crcUpdate_crcLow]
    _ = 0x0000#16 := by
      rw [← BitVec.shiftRight_add]
      exact BitVec.ushiftRight_eq_zero le_rfl

/-- Settles O44: the bits and the check value are computed, and the residue is that of a CRC's own trailer
(`crcFold_trailerBytes`). -/
theorem polynomialAndCheckValue : Obligations.PolynomialAndCheckValue := by
  have hcheck : compute [0x31, 0x32, 0x33, 0x34, 0x35, 0x36, 0x37, 0x38, 0x39] = 0x4B37#16 := by
    decide +kernel
  refine ⟨by decide, hcheck, ?_⟩
  have hresidue := crcFold_trailerBytes 0x4B37#16
  rw [← hcheck, ← compute_append, hcheck] at hresidue
  exact hresidue

/-- What the host sends for one element of a list of bytes and pauses: a FEED or a NOP. -/
def feedOrNop : Option Byte → Instr
  | some b => .feed b
  | none => .nop

/-- FEEDs fold their bytes into CRC in order, and NOPs between them do nothing (R57, R62). -/
theorem wordsEffect_feedOrNop_crc (bs : List (Option Byte)) (k : Block) :
    (wordsEffect (bs.map fun o => encode (feedOrNop o)) k).crc = crcFold k.crc (bs.filterMap id) := by
  induction bs generalizing k with
  | nil => rfl
  | cons o bs ih =>
    rw [List.map_cons, wordsEffect_cons, wordEffect_encode, ih]
    cases o <;> rfl

/-- Settles O45: INIT and reset both leave the initial value in CRC, and the FEEDs fold onto it
(`wordsEffect_feedOrNop_crc`, `wordsEffect_feeds_crc_flags`). -/
theorem computeAfterInitAndFeeds : Obligations.ComputeAfterInitAndFeeds := by
  refine ⟨fun s bs => ⟨_, runWords_eq _ s, ?_⟩, fun s bs hs => ⟨_, runWords_eq _ s, ?_⟩, rfl, fun bs b => ?_⟩
  · rw [State.onBlock_block, wordsEffect_cons, wordEffect_encode]
    exact wordsEffect_feedOrNop_crc bs s.block.startFrame
  · obtain ⟨hcrc, -⟩ := wordsEffect_feeds_crc_flags bs s.block
    rw [State.onBlock_block, hcrc, hs]
    rfl
  · exact compute_append bs [b]

/-- Settles O12: FEED's effect on the registers (`exec_eq`) with CNT counted by `nextCnt_eq`, and a word of its op with
reserved bits set is illegal (`decode_illegal_iff`). -/
theorem feedResult : Obligations.FeedResult := by
  refine ⟨encode_feed, fun b s _ => ?_, fun w hop hreserved s => ?_⟩
  · rw [← nextCnt_eq]
    exact exec_eq (.feed b) s
  · obtain ⟨r, hr⟩ := (decode_illegal_iff w).mpr (.inr (.inr (.inr ⟨hop, hreserved⟩)))
    exact runWord_of_illegal hr s

end Sys2Proof.Machine
end

section
/-! SUPPORT. CHECK and the report (R71, R73): the flags from each CHECK, and from all the CHECKs of a frame (R72). -/

namespace Sys2Proof.Machine

/-- Settles O54: the branches of `report` by ERR, CHK and EINFO. -/
theorem reportByFlags : Obligations.ReportByFlags := by
  refine fun k => ⟨fun herr hchk => ?_, fun herr hchk => ?_, fun herr hinfo => ?_, fun herr hinfo => ?_⟩
  · simp [Block.report, herr, hchk]
  · simp [Block.report, herr, hchk]
  · simp [Block.report, herr, hinfo]
  · simp [Block.report, herr, hinfo]

/-- Settles O13: CHECK's two cases (`blockEffect_check_match`, `blockEffect_check_mismatch`), and no word of its op has
fields that the decoder rejects (`decode_check_iff`). -/
theorem checkResult : Obligations.CheckResult := by
  refine ⟨fun hi lo => rfl, fun hi lo s h => ?_, fun hi lo s h => ?_, fun w hop => ?_⟩
  · rw [exec_eq, State.onBlock, blockEffect_check_match h]
    rfl
  · rw [exec_eq, State.onBlock, blockEffect_check_mismatch h]
    rfl
  · exact ⟨hiField w, loField w, decode_check_iff.mpr ⟨hop, rfl, rfl⟩⟩

/-- After a CHECK, ERR is the old ERR or whether this CHECK mismatched (R17, R71). -/
theorem blockEffect_check_err (hi lo : Byte) (k : Block) :
    (blockEffect (.check hi lo) k).err = (k.err || crcDiffers k.crc (trailerValue hi lo)) := by
  rcases blockEffect_check_cases hi lo k with ⟨heq, he⟩ | ⟨hne, he⟩
  · simp [he, (crcDiffers_eq_false _ _).mpr heq]
  · simp [he, crcDiffers, hne]

/-- A CHECK with ERR = 0 before it leaves ERR = 0 exactly when it matches (R71). -/
theorem blockEffect_check_err_eq_false_iff {hi lo : Byte} {k : Block} (h : k.err = false) :
    (blockEffect (.check hi lo) k).err = false ↔ k.crc = trailerValue hi lo := by
  rw [blockEffect_check_err, h, Bool.false_or, crcDiffers_eq_false]

/-- The first mismatching CHECK sets ERR and writes EINFO (R18, R71). -/
theorem blockEffect_check_first_mismatch {hi lo : Byte} {k : Block} (h : k.err = false)
    (hne : k.crc ≠ trailerValue hi lo) :
    (blockEffect (.check hi lo) k).err = true ∧ (blockEffect (.check hi lo) k).einfo = decide (k.cnt = 2#2) := by
  have hset : (blockEffect (.check hi lo) k).err = true := by
    rw [blockEffect_check_mismatch hne, Block.raiseMismatch_err]
  exact ⟨hset, blockEffect_check_einfo h hset⟩

/-- A CRC value is the trailer of its own two bytes and of no others (R28). -/
theorem eq_trailerValue_iff {c : Crc} {hi lo : Byte} : c = trailerValue hi lo ↔ hi = crcHigh c ∧ lo = crcLow c := by
  constructor
  · rintro rfl
    exact ⟨(crcHigh_trailerValue hi lo).symm, (crcLow_trailerValue hi lo).symm⟩
  · rintro ⟨rfl, rfl⟩
    exact (trailerValue_high_low c).symm

/-- Settles O16: with ERR = 0 before the CHECK, ERR says whether it matched (`blockEffect_check_err_eq_false_iff`), and a
CRC equals a trailer byte by byte (`eq_trailerValue_iff`). -/
theorem checkCornerCases : Obligations.CheckCornerCases := by
  refine ⟨fun s t hi lo ht => ⟨_, exec_eq _ t, ?_⟩, fun s herr => ⟨_, exec_eq _ s, ?_⟩,
    fun s hi lo herr hcnt hne => ⟨_, exec_eq _ s, ?_⟩⟩
  · have hstart : t.block = s.block.startFrame := exec_block ht
    rw [State.onBlock_block, blockEffect_check_err_eq_false_iff (by rw [hstart]; rfl), hstart]
    exact eq_trailerValue_iff (c := initV)
  · rw [State.onBlock_block, blockEffect_check_err_eq_false_iff herr, eq_trailerValue_iff]
    exact and_iff_left_of_imp Eq.symm
  · obtain ⟨hset, hinfo⟩ := blockEffect_check_first_mismatch herr hne
    exact ⟨hset, hinfo.trans (decide_eq_false hcnt)⟩

/-- A CHECK with ERR = 1 before it leaves EINFO alone (R18). -/
theorem blockEffect_check_einfo_of_err {hi lo : Byte} {k : Block} (h : k.err = true) :
    (blockEffect (.check hi lo) k).einfo = k.einfo := by
  rcases blockEffect_check_cases hi lo k with ⟨-, he⟩ | ⟨-, he⟩ <;> simp [he, h]

/-- Over commands without INIT, ERR collects the mismatches, and once it is 1 EINFO stays (R72). -/
theorem wordsEffect_err_einfo {is : List Instr} (his : Instr.init ∉ is) (k : Block) :
    (wordsEffect (is.map encode) k).err = (k.err || anyMismatch k.crc is) ∧
    (k.err = true → (wordsEffect (is.map encode) k).einfo = k.einfo) := by
  induction is generalizing k with
  | nil => exact ⟨by simp [wordsEffect_nil, anyMismatch], fun _ => rfl⟩
  | cons i is ih =>
    obtain ⟨hne, his⟩ := not_or.mp (List.mem_cons.not.mp his)
    rw [List.map_cons, wordsEffect_cons, wordEffect_encode]
    obtain ⟨herr, hinfo⟩ := ih his (blockEffect i k)
    cases i with
    | nop => exact ⟨herr, hinfo⟩
    | init => exact absurd rfl hne
    | feed b => exact ⟨herr, hinfo⟩
    | check hi lo =>
      obtain ⟨hcrc, -⟩ := blockEffect_check_frame hi lo k
      refine ⟨?_, fun hk => ?_⟩
      · rw [herr, blockEffect_check_err, hcrc, Bool.or_assoc, anyMismatch]
      · rw [hinfo (by rw [blockEffect_check_err, hk, Bool.true_or]), blockEffect_check_einfo_of_err hk]

/-- Settles O53: `wordsEffect_err_einfo`, from the state before the commands and from the one the first mismatching CHECK
leaves. -/
theorem checksOfAFrameCombine : Obligations.ChecksOfAFrameCombine := by
  refine ⟨fun is s his => ⟨_, runWords_eq _ s, wordsEffect_err_einfo his s.block⟩,
    fun before after hi lo s m hafter hbefore herr hne => ⟨_, runWords_eq _ s, ?_⟩⟩
  have hm : wordsEffect (before.map encode) s.block = m.block := by
    rw [runWords_eq] at hbefore
    rw [← Host.Outcome.next.inj hbefore, State.onBlock_block]
  obtain ⟨hset, hinfo⟩ := blockEffect_check_first_mismatch herr hne
  obtain ⟨herr', hinfo'⟩ := wordsEffect_err_einfo hafter (blockEffect (.check hi lo) m.block)
  rw [State.onBlock_block, List.map_append, wordsEffect_append, hm, List.map_cons, wordsEffect_cons, wordEffect_encode]
  exact ⟨by rw [herr', hset, Bool.true_or], (hinfo' hset).trans hinfo⟩

end Sys2Proof.Machine
end

section
/-! SUPPORT. The residue (R74) and what errors in a buffer do to it (R75): by linearity an error is a value XORed
into the residue, whatever the buffer holds. -/

namespace Sys2Proof.Machine

theorem repeat_crcShift_eq_zero_iff (n : Nat) (x : Crc) : Nat.repeat crcShift n x = 0x0000#16 ↔ x = 0x0000#16 := by
  induction n with
  | zero => rfl
  | succ n ih => rw [Nat.repeat, crcShift_eq_zero_iff, ih]

/-- The update gives zero for the byte that equals the CRC, and for no other (R61). -/
theorem crcUpdate_eq_zero_iff (c : Crc) (b : Byte) : crcUpdate c b = 0x0000#16 ↔ c = zext16 b := by
  rw [crcUpdate, repeat_crcShift_eq_zero_iff, BitVec.xor_eq_zero_iff]

/-- A difference in the CRC goes through a fold as it goes through as many zero bytes (R65). -/
theorem crcFold_xor (c d : Crc) (bs : List Byte) :
    crcFold (c ^^^ d) bs = crcFold c bs ^^^ crcFold d (List.replicate bs.length 0x00#8) := by
  induction bs generalizing c d with
  | nil => rfl
  | cons b bs ih =>
    have hstep : crcUpdate (c ^^^ d) b = crcUpdate c b ^^^ crcUpdate d 0x00#8 := by
      rw [← crcUpdate_xor, BitVec.xor_zero]
    rw [crcFold_cons, hstep, ih]
    rfl

/-- Zero bytes lose no difference. -/
theorem crcFold_zeros_eq_zero_iff (c : Crc) (n : Nat) :
    crcFold c (List.replicate n 0x00#8) = 0x0000#16 ↔ c = 0x0000#16 := by
  induction n generalizing c with
  | zero => rfl
  | succ n ih =>
    rw [List.replicate_succ, crcFold_cons, ih]
    exact crcUpdate_eq_zero_iff c 0x00#8

/-- The trailer that takes a CRC to residue zero is its own (R74). -/
theorem crcFold_trailer_eq_zero_iff (c : Crc) (u v : Byte) : crcFold c [u, v] = 0x0000#16 ↔ c = trailerValue v u := by
  have hown : crcFold (trailerValue v u) [u, v] = 0x0000#16 := by
    have h := crcFold_trailerBytes (trailerValue v u)
    rwa [trailerBytes, crcLow_trailerValue, crcHigh_trailerValue] at h
  have hdiff := crcFold_xor (trailerValue v u) (trailerValue v u ^^^ c) [u, v]
  rw [← BitVec.xor_assoc, BitVec.xor_self, BitVec.zero_xor, hown, BitVec.zero_xor] at hdiff
  rw [hdiff, crcFold_zeros_eq_zero_iff, BitVec.xor_eq_zero_iff, eq_comm]

/-- A body followed by its own trailer has residue zero (R74). -/
theorem compute_append_trailerBytes (body : List Byte) :
    compute (body ++ trailerBytes (compute body)) = 0x0000#16 := by
  rw [compute_append, crcFold_trailerBytes]

/-- Settles O47: the residue is zero for the CRC's own trailer alone (`crcFold_trailer_eq_zero_iff`), which is what the
CHECK of the decode path compares with (`decodePathVerdict`). -/
theorem residueIsZeroExactlyOnMatch : Obligations.ResidueIsZeroExactlyOnMatch := by
  refine ⟨compute_append_trailerBytes, fun c u v h => ?_, fun s body u v => ?_⟩
  · obtain rfl := (crcFold_trailer_eq_zero_iff c u v).mp h
    exact ⟨(crcLow_trailerValue v u).symm, (crcHigh_trailerValue v u).symm⟩
  · obtain ⟨-, t, hrun, -, herr, -⟩ := decodePathVerdict.1 s body u v
    refine ⟨t, hrun, ?_⟩
    rw [compute_append, crcFold_trailer_eq_zero_iff, herr, decide_eq_false_iff_not, not_not, trailerValue]

/-- The value that the error `m` in a byte adds to the residue when `n` bytes follow it (R65). -/
def errorResidue (n : Nat) (m : Byte) : Crc := crcFold (crcUpdate 0x0000#16 m) (List.replicate n 0x00#8)

theorem errorResidue_eq_zero_iff (n : Nat) (m : Byte) : errorResidue n m = 0x0000#16 ↔ m = 0x00#8 := by
  rw [errorResidue, crcFold_zeros_eq_zero_iff, crcUpdate_eq_zero_iff]
  revert m; decide

/-- An error in one byte of a buffer adds its `errorResidue`, whatever the buffer holds (R65). -/
theorem crcFold_modify (c : Crc) {bs : List Byte} {i : Nat} (hi : i < bs.length) (m : Byte) :
    crcFold c (bs.modify i (· ^^^ m)) = crcFold c bs ^^^ errorResidue (bs.length - 1 - i) m := by
  induction bs generalizing c i with
  | nil => exact absurd hi (Nat.not_lt_zero i)
  | cons b bs ih =>
    cases i with
    | zero =>
      have hstep : crcUpdate c (b ^^^ m) = crcUpdate c b ^^^ crcUpdate 0x0000#16 m := by
        rw [← crcUpdate_xor, BitVec.xor_zero]
      rw [List.modify_zero_cons, crcFold_cons, hstep, crcFold_xor]
      rfl
    | succ i =>
      rw [List.modify_succ_cons, crcFold_cons, ih _ (Nat.lt_of_succ_lt_succ hi)]
      rw [List.length_cons, Nat.add_sub_cancel, Nat.sub_sub, Nat.add_comm 1 i, crcFold_cons]

/-- A buffer of two bytes or more is a body and a trailer (R40). -/
theorem exists_trailer {buffer : List Byte} (h : 2 ≤ buffer.length) : ∃ body u v, buffer = body ++ [u, v] := by
  rcases buffer.eq_nil_or_concat with rfl | ⟨front, v, rfl⟩
  · simp at h
  · rcases front.eq_nil_or_concat with rfl | ⟨body, u, rfl⟩
    · simp at h
    · exact ⟨body, u, v, by simp⟩

/-- A buffer for which there is a decode path has a trailer (R42). -/
theorem two_le_length_of_verifyCommands {buffer : List Byte} {is : List Instr} (h : verifyCommands buffer = some is) :
    2 ≤ buffer.length := by
  obtain ⟨-, hnone⟩ := decodePathVerdict
  by_contra hshort
  simp [hnone buffer (Nat.lt_of_not_le hshort)] at h

/-- The decode path of a buffer with a trailer leaves ERR = 0 exactly when the residue is zero: `residueIsZeroExactlyOnMatch`
read at the buffer (R40, R74). -/
theorem verifyCommands_err {buffer : List Byte} (h : 2 ≤ buffer.length) (s : State) :
    ∃ is t, verifyCommands buffer = some is ∧ runWords (is.map encode) s = .next t ∧
      (compute buffer = 0x0000#16 ↔ t.block.err = false) := by
  obtain ⟨body, u, v, rfl⟩ := exists_trailer h
  obtain ⟨-, -, hresidue⟩ := residueIsZeroExactlyOnMatch
  obtain ⟨t, hrun, herr⟩ := hresidue s body u v
  exact ⟨_, t, verifyCommands_append body u v, hrun, herr⟩

theorem bit_ne_zero (k : Fin 8) : 1#8 <<< k.val ≠ 0x00#8 := by
  revert k; decide

/-- Settles O51: the flipped bit adds a value to the residue (`crcFold_modify`) that is not zero
(`errorResidue_eq_zero_iff`). -/
theorem singleBitErrorIsDetected : Obligations.SingleBitErrorIsDetected := by
  intro s s' t buffer is n k hverify hrun herr
  have hlength := two_le_length_of_verifyCommands hverify
  obtain ⟨is', t', hverify', hrun', hresidue⟩ := verifyCommands_err hlength s
  obtain rfl := Option.some.inj (hverify.symm.trans hverify')
  obtain rfl := Host.Outcome.next.inj (hrun.symm.trans hrun')
  obtain ⟨js, u, hjs, hu, hflipped⟩ :=
    verifyCommands_err (buffer := buffer.modify n (· ^^^ (1#8 <<< k.val))) (by rwa [List.length_modify]) s'
  refine ⟨js, u, hjs, hu, ?_⟩
  rw [← Bool.not_eq_false, ← hflipped, compute, crcFold_modify _ n.isLt, ← compute, hresidue.mpr herr, BitVec.zero_xor,
    errorResidue_eq_zero_iff]
  exact bit_ne_zero k

end Sys2Proof.Machine
end

section
/-! SUPPORT. Flipped bits of the 8-byte request frame (R76): what each adds to the residue, and when that adds up to zero. -/

namespace Sys2Proof.Machine

/-- Whether an odd number of the bits of a CRC value is 1. -/
def oddParity (c : Crc) : Bool := (List.range 16).foldr (fun i p => c.getLsbD i ^^ p) false

theorem oddParity_xor (a b : Crc) : oddParity (a ^^^ b) = (oddParity a ^^ oddParity b) := by
  unfold oddParity
  induction List.range 16 with
  | nil => rfl
  | cons i is ih =>
    rw [List.foldr_cons, ih, BitVec.getLsbD_xor, List.foldr_cons, List.foldr_cons]
    simp only [Bool.xor_assoc, Bool.xor_left_comm]

@[simp] theorem oddParity_zero : oddParity 0x0000#16 = false := by decide

/-- An 8-byte frame with bit `p.2` of byte `p.1` flipped. -/
def flipBit (bs : List Byte) (p : Fin 8 × Fin 8) : List Byte := bs.modify p.1.val (· ^^^ (1#8 <<< p.2.val))

/-- What that bit adds to the residue. -/
def flipResidue (p : Fin 8 × Fin 8) : Crc := errorResidue (7 - p.1.val) (1#8 <<< p.2.val)

/-- Each flipped bit of an 8-byte frame adds its own value to the residue (R65). -/
theorem compute_flipBits (flips : List (Fin 8 × Fin 8)) {bs : List Byte} (h : bs.length = 8) :
    compute (flips.foldl flipBit bs) = flips.foldl (fun c p => c ^^^ flipResidue p) (compute bs) := by
  induction flips generalizing bs with
  | nil => rfl
  | cons p ps ih =>
    have hflip : compute (flipBit bs p) = compute bs ^^^ flipResidue p := by
      have hbyte : p.1.val < bs.length := by omega
      have hmodify := crcFold_modify initV hbyte (1#8 <<< p.2.val)
      rwa [h] at hmodify
    rw [List.foldl_cons, ih (by rw [flipBit, List.length_modify, h]), hflip, List.foldl_cons]

/-- The value of every bit has odd parity, so odd numbers of flips are all found (R76). -/
theorem oddParity_flipResidue (p : Fin 8 × Fin 8) : oddParity (flipResidue p) = true := by
  revert p; decide +kernel

/-- No two bits have the same value, so two flips never cancel (R76). -/
theorem flipResidue_injective : Function.Injective flipResidue := by
  unfold Function.Injective; decide +kernel

/-- Each flip turns the parity of the residue over. -/
theorem oddParity_foldl_flipResidue (flips : List (Fin 8 × Fin 8)) (c : Crc) :
    oddParity (flips.foldl (fun c p => c ^^^ flipResidue p) c) = (oddParity c ^^ flips.length.bodd) := by
  induction flips generalizing c with
  | nil => simp
  | cons p ps ih => simp [ih, oddParity_xor, oddParity_flipResidue]

/-- Settles O52: the flipped bits' values add up in the residue (`compute_flipBits`). An odd number of them has odd parity,
so they are not zero; two of them are not zero since no two bits have the same value. -/
theorem limitsOfDetection : Obligations.LimitsOfDetection := by
  have hbody : compute [0x01, 0x03, 0x00, 0x00, 0x00, 0x02] = 0x0BC4#16 := by decide +kernel
  have hframe : compute [0x01, 0x03, 0x00, 0x00, 0x00, 0x02, 0xC4, 0x0B] = 0x0000#16 := by
    have hresidue := compute_append_trailerBytes [0x01, 0x03, 0x00, 0x00, 0x00, 0x02]
    rw [hbody] at hresidue
    exact hresidue
  refine ⟨⟨by decide +kernel, hbody⟩, fun flips hne hlength hdistinct hzero => ?_⟩
  have hsum := (compute_flipBits flips rfl).symm.trans hzero
  rw [hframe] at hsum
  have heven := oddParity_foldl_flipResidue flips 0x0000#16
  rw [hsum, oddParity_zero, Bool.false_xor] at heven
  match flips with
  | [] => exact hne rfl
  | [p] => simp at heven
  | [p, q] =>
    have hpq : p = q := flipResidue_injective (by simpa [BitVec.xor_eq_zero_iff] using hsum)
    simp [hpq] at hdistinct
  | [p, q, r] => simp at heven
  | _ :: _ :: _ :: _ :: _ =>
    simp only [List.length_cons] at hlength
    omega

end Sys2Proof.Machine
end

section
/-! SUPPORT. What a step, and a word, may do to the registers and to the recorded events (R81, R84, R86, R87, R92). -/

namespace Sys2Proof.Machine

/-- Settles O29: the three cases of `step_block_cases`, with the completing word's effect read off `runWord_eq`. -/
theorem registersChangeOnlyByCommandOrReset : Obligations.RegistersChangeOnlyByCommandOrReset := by
  intro s t h
  rcases step_block_cases h with hreset | hkept | ⟨w, hc, hb⟩
  · exact .inl hreset
  · exact .inr (.inl hkept)
  · exact .inr (.inr ⟨w, _, hc, runWord_eq w s, hb⟩)

/-- The registers after a word are its effect on the registers before it (R32). -/
theorem runWord_block {w : CmdWord} {s t : State} (h : runWord w s = .next t) : t.block = wordEffect w s.block := by
  rw [runWord_eq] at h
  rw [← Host.Outcome.next.inj h, State.onBlock_block]

/-- A word that changes ERR is INIT, which clears it, or a CHECK, which sets it (R17). -/
theorem wordEffect_err_ne {w : CmdWord} {k : Block} (h : (wordEffect w k).err ≠ k.err) :
    (decode w = .command .init ∧ (wordEffect w k).err = false) ∨
    (∃ hi lo, decode w = .command (.check hi lo) ∧ (wordEffect w k).err = true) := by
  cases hd : decode w with
  | command i =>
    rw [wordEffect_of_command hd] at h ⊢
    rcases blockEffect_err_ne h with ⟨rfl, he⟩ | ⟨hi, lo, rfl, -, he⟩
    · exact .inl ⟨rfl, he⟩
    · exact .inr ⟨hi, lo, rfl, he⟩
  | illegal r => exact absurd (by rw [wordEffect_of_illegal hd]; rfl) h

/-- A word that changes ILL is an illegal one, which sets it (R19). -/
theorem wordEffect_ill_ne {w : CmdWord} {k : Block} (h : (wordEffect w k).ill ≠ k.ill) :
    ∃ r, decode w = .illegal r ∧ (wordEffect w k).ill = true := by
  cases hd : decode w with
  | command i => exact absurd (by rw [wordEffect_of_command hd, blockEffect_ill]) h
  | illegal r => exact ⟨r, rfl, by rw [wordEffect_of_illegal hd]; rfl⟩

@[simp] theorem Block.pending_crcMismatch (k : Block) : k.pending .crcMismatch = k.err := rfl

@[simp] theorem Block.pending_illegalCommand (k : Block) : k.pending .illegalCommand = k.ill := rfl

/-- Settles O37: an event newly recorded, or removed, is a change of ERR (`wordEffect_err_ne`) or of ILL
(`wordEffect_ill_ne`), which say the kind of word; a command keeps ILL, and an illegal word writes nothing else. -/
theorem oneEventPerWord : Obligations.OneEventPerWord := by
  intro w s t h
  simp only [runWord_block h, Block.pending_crcMismatch, Block.pending_illegalCommand]
  refine ⟨fun h0 h1 => ?_, fun h0 h1 => ?_, fun e h1 h0 => ?_⟩
  · have hne : (wordEffect w s.block).err ≠ s.block.err := by simp [h0, h1]
    rcases wordEffect_err_ne hne with ⟨-, he⟩ | ⟨hi, lo, hd, -⟩
    · simp [he] at h1
    · exact ⟨⟨hi, lo, hd⟩, by rw [wordEffect_of_command hd, blockEffect_ill]⟩
  · have hne : (wordEffect w s.block).ill ≠ s.block.ill := by simp [h0, h1]
    obtain ⟨r, hd, -⟩ := wordEffect_ill_ne hne
    rw [wordEffect_of_illegal hd]
    exact ⟨⟨r, hd⟩, rfl, rfl⟩
  · cases e with
    | crcMismatch =>
      rw [Block.pending_crcMismatch] at h0 h1
      have hne : (wordEffect w s.block).err ≠ s.block.err := by simp [h0, h1]
      rcases wordEffect_err_ne hne with ⟨hd, -⟩ | ⟨hi, lo, -, he⟩
      · exact ⟨rfl, hd⟩
      · simp [he] at h0
    | illegalCommand =>
      rw [Block.pending_illegalCommand] at h0 h1
      have hne : (wordEffect w s.block).ill ≠ s.block.ill := by simp [h0, h1]
      obtain ⟨r, -, hset⟩ := wordEffect_ill_ne hne
      simp [hset] at h0

/-- Settles O14: a ready block runs the word (`step_of_ready`), whose effect is to raise ILLEGAL_COMMAND
(`wordEffect_of_illegal`). -/
theorem illegalWordResult : Obligations.IllegalWordResult := by
  intro s w r hi hrst hf hp hd
  have hready := cmdReady_of_idle hrst hf
  refine ⟨_, step_of_ready hi hready hp, ?_, hready, ?_⟩ <;> rw [wordEffect_of_illegal hd] <;> rfl

end Sys2Proof.Machine
end

section
/-! SUPPORT. What an operation at one instance of a platform leaves of the others (R91). -/

namespace Sys2Proof.Machine

theorem Platform.assertReset_slot_ne (p : Platform) {k j : Nat} (h : j ≠ k) :
    (p.assertReset k).slots[j]? = p.slots[j]? :=
  List.getElem?_modify_ne _ _ h.symm

theorem Platform.releaseReset_slot_ne (p : Platform) {k j : Nat} (h : j ≠ k) :
    (p.releaseReset k).slots[j]? = p.slots[j]? :=
  List.getElem?_modify_ne _ _ h.symm

/-- Settles O57: by `Platform.issue_cases` and `Platform.idleEdge_cases` only the slot `k` is set, and a reset modifies it
alone. -/
theorem instancesDoNotInteract : Obligations.InstancesDoNotInteract := by
  refine ⟨fun p q k frame w h => ?_, fun p q k h j hj => ?_, fun p k j hj => ⟨?_, ?_, ?_⟩⟩
  · obtain ⟨slot, hslot, ⟨hr, rfl⟩ | ⟨-, -, rfl⟩⟩ := Platform.issue_cases h
    · exact ⟨fun _ _ => rfl, slot, slot, hslot, hslot, fun hready => absurd (hr.symm.trans hready) Bool.false_ne_true⟩
    · exact ⟨fun j hj => List.getElem?_set_ne hj.symm, slot, _, hslot, Platform.set_slot hslot _,
        fun _ => ⟨_, runWord_eq w slot.core, rfl⟩⟩
  · obtain ⟨slot, t, -, -, rfl⟩ := Platform.idleEdge_cases h
    exact List.getElem?_set_ne hj.symm
  · exact p.assertReset_slot_ne hj
  · exact p.releaseReset_slot_ne hj
  · rw [Platform.resetSlot, Platform.releaseReset_slot_ne _ hj, p.assertReset_slot_ne hj]

end Sys2Proof.Machine
end

section
/-! SUPPORT. The step on each port event listed first (R94, R98 to R100), one rule per event and per state of the port. -/

namespace Sys2Proof.Machine

/-- With an event listed, the step is that event at the port. -/
theorem step_of_event {s : State} {e : PortEvent} {rest : List PortEvent} (h : s.inputs = e :: rest) :
    step s = handleEvent e { s with inputs := rest } := by
  simp only [step, portStep, h]

theorem step_of_assertReset {s : State} {rest : List PortEvent} (h : s.inputs = .assertReset :: rest) :
    step s = .next ({ s with inputs := rest } : State).assertReset :=
  step_of_event h

/-- Under reset a clock edge changes nothing (R94). -/
theorem step_of_edge_rst {s : State} {o : Offer} {rest : List PortEvent} (hi : s.inputs = .edge o :: rest)
    (hr : s.rst = true) : step s = .next { s with inputs := rest } := by
  simp [step_of_event hi, handleEvent, clockEdge, hr]

/-- At an idle block a clock edge takes what is offered (R98). -/
theorem step_of_edge_idle {s : State} {o : Offer} {rest : List PortEvent} (hi : s.inputs = .edge o :: rest)
    (hr : s.rst = false) (hf : s.inFlight = none) : step s = .next (offerAtEdge o { s with inputs := rest }) := by
  simp [step_of_event hi, handleEvent, clockEdge, hr, hf]

/-- At the last edge of a command in progress it completes (R98). -/
theorem step_of_edge_last {s : State} {o : Offer} {w : CmdWord} {rest : List PortEvent}
    (hi : s.inputs = .edge o :: rest) (hr : s.rst = false) (hf : s.inFlight = some ⟨w, 0⟩) :
    step s = completeWord w { s with inputs := rest } := by
  simp [step_of_event hi, handleEvent, clockEdge, hr, hf, completeWord]

/-- At an earlier edge of a command in progress one cycle passes (R98). -/
theorem step_of_edge_waiting {s : State} {o : Offer} {w : CmdWord} {n : Nat} {rest : List PortEvent}
    (hi : s.inputs = .edge o :: rest) (hr : s.rst = false) (hf : s.inFlight = some ⟨w, n + 1⟩) :
    step s = .next { s with inputs := rest, inFlight := some ⟨w, n⟩ } := by
  simp [step_of_event hi, handleEvent, clockEdge, hr, hf]

/-- An edge at an idle block with nothing offered, or with `pc = n`, changes nothing (R98, R103). -/
theorem step_of_edge_noWord {s : State} {o : Offer} {rest : List PortEvent} (hi : s.inputs = .edge o :: rest)
    (hr : s.rst = false) (hf : s.inFlight = none) (hnone : o = .idle ∨ s.program[s.pc]? = none) :
    step s = .next { s with inputs := rest } := by
  rw [step_of_edge_idle hi hr hf]
  rcases hnone with rfl | hp
  · rfl
  · cases o <;> simp [offerAtEdge, hp]

/-- An edge at an idle block accepts the word held there (R98). -/
theorem step_of_edge_held {s : State} {w : CmdWord} {rest : List PortEvent} (hi : s.inputs = .edge .held :: rest)
    (hr : s.rst = false) (hf : s.inFlight = none) (hp : s.program[s.pc]? = some w) :
    step s = .next (({ s with inputs := rest } : State).accept w) := by
  simp [step_of_edge_idle hi hr hf, offerAtEdge, hp]

/-- An edge at an idle block with an unstable offer accepts a free word (R99). -/
theorem step_of_edge_unstable {s : State} {w : CmdWord} {rest : List PortEvent}
    (hi : s.inputs = .edge .unstable :: rest) (hr : s.rst = false) (hf : s.inFlight = none)
    (hp : s.program[s.pc]? = some w) :
    step s = .next (({ s with inputs := rest } : State).accept (Config.freeWord s.draws)) := by
  simp [step_of_edge_idle hi hr hf, offerAtEdge, hp]

/-- With no event listed, the command in progress completes (R98). -/
theorem step_of_inFlight {s : State} {f : InFlight} (hi : s.inputs = []) (hr : s.rst = false)
    (hf : s.inFlight = some f) : step s = completeWord f.word s := by
  simp [step, portStep, issueNext, hi, hr, hf]

/-- The completion of a word that decodes to a command is that command, on the block made idle. -/
theorem completeWord_of_command {w : CmdWord} {i : Instr} (h : decode w = .command i) (s : State) :
    completeWord w s = exec i { s with inFlight := none } := by
  rw [completeWord_eq, exec_eq, wordEffect_of_command h]

theorem cmdReady_eq_false_of_inFlight {s : State} (h : s.inFlight ≠ none) : s.cmdReady = false := by
  obtain ⟨f, hf⟩ := Option.ne_none_iff_exists'.mp h
  simp [State.cmdReady, hf]

theorem cmdReady_eq_false_of_rst {s : State} (h : s.rst = true) : s.cmdReady = false := by
  simp [State.cmdReady, h]

/-- The outputs show the registers of a ready block (R100). -/
theorem shownOutputs_of_ready {s : State} (h : s.cmdReady = true) : s.shownOutputs = s.block.outputs := by
  simp [State.shownOutputs, h]

end Sys2Proof.Machine
end

section
/-! SUPPORT. Acceptance and completion of one command, edge by edge, and the sampling of the outputs (R98 to R100). -/

namespace Sys2Proof.Machine

/-- Settles O17: a ready block runs the word's effect (`step_of_ready`), which is the command's. -/
theorem stepRunsDecodedCommand : Obligations.StepRunsDecodedCommand := by
  intro s w i hi hr hf hp hd _
  rw [step_of_ready hi (cmdReady_of_idle hr hf) hp, wordEffect_of_command hd]
  exact (exec_eq i _).symm

/-- Settles O18: both steps are `completeWord` (`step_of_inFlight`, `step_of_edge_last`), which runs the command. -/
theorem stepCompletesCommand : Obligations.StepCompletesCommand := by
  refine fun s w i hr hd => ⟨fun n hf hi => ?_, fun o rest hf hi => ?_⟩
  · rw [step_of_inFlight hi hr hf, completeWord_of_command hd]
  · rw [step_of_edge_last hi hr hf, completeWord_of_command hd]

/-- Settles O19: one rule of the clock edge for each clause. -/
theorem clockEdgeRules : Obligations.ClockEdgeRules := by
  refine fun s o rest hr hi => ⟨step_of_edge_noWord hi hr, fun w hf ho hp => ?_, fun w n => step_of_edge_waiting hi hr⟩
  subst ho
  exact step_of_edge_held hi hr hf hp

/-- Settles O20: the edge on an idle block accepts the free word (`step_of_edge_unstable`). -/
theorem unstableOfferAcceptsFreeWord : Obligations.UnstableOfferAcceptsFreeWord :=
  fun _ _ _ hr hf hi hp => ⟨_, step_of_edge_unstable hi hr hf hp, rfl, rfl, rfl⟩

/-- Settles O22: the sample is `cmd_ready_o` and the outputs shown, which a ready block takes from its registers. -/
theorem sampleReadsOutputs : Obligations.SampleReadsOutputs := by
  refine fun s rest hi => ⟨⟨s.cmdReady, s.shownOutputs⟩, step_of_event hi, fun hf hr => ?_,
    cmdReady_eq_false_of_inFlight, cmdReady_eq_false_of_rst⟩
  have hready := cmdReady_of_idle hr hf
  rw [shownOutputs_of_ready hready, hready]

/-- Clock edges before the last one of a command in progress only count down, whatever is offered at them (R98). -/
theorem run_waiting_edges {s : State} {w : CmdWord} {n : Nat} {offers : List Offer} {rest : List PortEvent}
    (hr : s.rst = false) (hf : s.inFlight = some ⟨w, n⟩) (hi : s.inputs = offers.map .edge ++ rest)
    (hn : offers.length ≤ n) :
    Sys2Proof.core.run offers.length s =
      .next { s with inputs := rest, inFlight := some ⟨w, n - offers.length⟩ } := by
  induction offers generalizing s n with
  | nil =>
    have hrest : s.inputs = rest := hi
    rw [List.length_nil, run_zero, Nat.sub_zero, ← hf, ← hrest]
  | cons o os ih =>
    cases n with
    | zero => simp at hn
    | succ n =>
      have hedge : s.inputs = .edge o :: (os.map .edge ++ rest) := hi
      rw [List.length_cons, run_succ (step_of_edge_waiting hedge hr hf), Nat.add_sub_add_right]
      exact ih hr rfl rfl (Nat.le_of_succ_le_succ hn)

/-- The edge after the ones it waits for completes the command in progress (R98). -/
theorem run_edges_to_completion {s : State} {w : CmdWord} {n : Nat} {offers : List Offer} {rest : List PortEvent}
    (hr : s.rst = false) (hf : s.inFlight = some ⟨w, n⟩) (hi : s.inputs = offers.map .edge ++ rest)
    (hn : offers.length = n + 1) :
    Sys2Proof.core.run offers.length s =
      .next (({ s with inputs := rest, inFlight := none } : State).onBlock (wordEffect w)) := by
  induction n generalizing s offers with
  | zero =>
    obtain ⟨o, rfl⟩ := List.length_eq_one_iff.mp hn
    have hedge : s.inputs = .edge o :: rest := hi
    exact run_succ ((step_of_edge_last hedge hr hf).trans (completeWord_eq w _)) 0
  | succ n ih =>
    obtain ⟨o, os, rfl⟩ := List.exists_cons_of_length_eq_add_one hn
    have hedge : s.inputs = .edge o :: (os.map .edge ++ rest) := hi
    rw [List.length_cons, run_succ (step_of_edge_waiting hedge hr hf)]
    exact ih hr rfl rfl (Nat.succ.inj hn)

/-- A word accepted by an idle block and completed: only `pc` and the count of draws have moved. -/
theorem State.accept_idle_completed {s : State} (hf : s.inFlight = none) (w : CmdWord) :
    ({ s.accept w with inFlight := none } : State) = { s with pc := s.pc + 1, draws := s.draws + 1 } := by
  rw [← hf]
  rfl

/-- Settles O21: the first edge accepts the word with `CMD_CYCLES - 1` edges to wait (`State.accept_inFlight`); fewer than
`CMD_CYCLES` edges only count down (`run_waiting_edges`), and exactly that many complete it (`run_edges_to_completion`). -/
theorem acceptedCommandCompletes : Obligations.AcceptedCommandCompletes := by
  intro s w offers rest hr hf hp hi
  rw [Nat.add_comm 1, run_succ (step_of_edge_held hi hr hf hp)]
  refine ⟨fun hlt => ?_, fun heq => ?_⟩
  · exact ⟨_, run_waiting_edges hr (State.accept_inFlight w _) rfl (Nat.le_of_lt_succ hlt),
      cmdReady_eq_false_of_inFlight (by simp), rfl⟩
  · refine ⟨_, run_edges_to_completion hr (State.accept_inFlight w _) rfl heq, cmdReady_of_idle hr rfl, rfl, ?_⟩
    rw [runWord_eq, ← State.accept_idle_completed (s := { s with inputs := rest }) hf w]
    rfl

end Sys2Proof.Machine
end

section
/-! SUPPORT. No state is stuck, and a run in protocol ends without a fault (R81, R97, R105). -/

namespace Sys2Proof.Machine

theorem issueNext_total (s : State) : ∃ t, issueNext s = .next t := by
  unfold issueNext
  split
  · exact ⟨s, rfl⟩
  · split
    · exact ⟨_, completeWord_eq _ s⟩
    · split
      · exact ⟨_, runWord_eq _ _⟩
      · exact ⟨s, rfl⟩

theorem clockEdge_total (o : Offer) (s : State) : ∃ t, clockEdge o s = .next t := by
  unfold clockEdge
  split
  · exact ⟨s, rfl⟩
  · split
    · exact ⟨_, rfl⟩
    · exact ⟨_, completeWord_eq _ s⟩
    · exact ⟨_, rfl⟩

/-- Every step answers a next state (R105). -/
theorem step_total (s : State) : ∃ t, step s = .next t := by
  rcases hi : s.inputs with _ | ⟨e, rest⟩
  · simpa only [step, portStep, hi] using issueNext_total s
  · rw [step_of_event hi]
    cases e with
    | edge o => exact clockEdge_total o _
    | assertReset => exact ⟨_, rfl⟩
    | releaseReset => exact ⟨_, rfl⟩
    | sample => exact ⟨_, rfl⟩

/-- Settles O24: no step stops (`step_total`), a ready block takes its word (`step_of_ready`), and the words still to come
are run one step each (`run_rest_of_program`). -/
theorem noStuckState : Obligations.NoStuckState := by
  refine ⟨step_total, fun s w hi hr hp => ⟨_, step_of_ready hi hr hp, rfl, hr⟩, fun s hi hr hle => ?_⟩
  have hrun := run_rest_of_program hi hr (List.take_append_drop s.pc s.program).symm (List.length_take_of_le hle).symm
  rw [List.length_drop] at hrun
  refine ⟨_, hrun, ?_⟩
  simp only [State.runEnded, State.onBlock_pc, State.onBlock_program, Nat.add_sub_cancel' hle, beq_self_eq_true,
    Bool.true_and]
  exact hr

/-- Words that all decode to commands are all legal (R51). -/
theorem legalWord_of_mapM_command? {p : List CmdWord} {is : List Instr}
    (h : p.mapM (fun w => (decode w).command?) = some is) : ∀ w ∈ p, legalWord w = true := by
  induction p generalizing is with
  | nil => simp
  | cons w ws ih =>
    simp only [List.mapM_cons, Option.bind_eq_bind, Option.bind_eq_some_iff] at h
    obtain ⟨i, hi, js, hjs, -⟩ := h
    have hw : legalWord w = true :=
      (legalWord_iff_decode w).mpr ((command?_isSome_iff _).mp (Option.isSome_of_eq_some hi))
    exact List.forall_mem_cons.mpr ⟨hw, ih hjs⟩

/-- A program in protocol holds legal words alone (R97 step 4). -/
theorem legalWord_of_followsProtocol {p : List CmdWord} (h : followsProtocol p = true) :
    ∀ w ∈ p, legalWord w = true := by
  cases hm : p.mapM (fun w => (decode w).command?) with
  | some is => exact legalWord_of_mapM_command? hm
  | none => simp [followsProtocol, hm] at h

/-- Settles O39: ILL records illegal words alone (`wordsEffect_ill`), and a program in protocol has none. -/
theorem protocolRunIsTrustworthy : Obligations.ProtocolRunIsTrustworthy := by
  intro p s hp hill
  have hnone : (p.any fun w => !legalWord w) = false := by
    simpa using legalWord_of_followsProtocol hp
  have hkept : (s.onBlock (wordsEffect p)).block.ill = false := by
    rw [State.onBlock_block, wordsEffect_ill, hill, hnone, Bool.or_false]
  exact ⟨_, runWords_eq p s, by rw [State.trustworthy, hkept, Bool.not_false], if_neg (ne_true_of_eq_false hkept)⟩

end Sys2Proof.Machine
end

section
/-! SUPPORT. Reset of one block, and of an instance of a platform (R93 to R95). -/

namespace Sys2Proof.Machine

theorem Block.reset_outputs : Block.reset.outputs = ⟨0xFFFF#16, 0x00#8, 0x00#8, 0x00#8⟩ := by decide

/-- Settles O7: the step of assert reset is `State.assertReset`, which writes `Block.reset`. -/
theorem resetSetsEveryElement : Obligations.ResetSetsEveryElement :=
  ⟨rfl, fun _ _ hi => ⟨_, step_of_assertReset hi, rfl, Block.reset_outputs⟩⟩

/-- Settles O8: each clause is the step of its event; under reset a clock edge changes nothing (`step_of_edge_rst`). -/
theorem resetKillsCommand : Obligations.ResetKillsCommand :=
  ⟨fun _ _ hi => step_of_assertReset hi, fun _ _ _ hr hi => step_of_edge_rst hi hr,
    fun _ _ hi => step_of_event hi⟩

/-- INIT writes the reset values, but for ILL, which it keeps (R58, R95). -/
theorem Block.startFrame_of_ill {k : Block} (h : k.ill = false) : k.startFrame = Block.reset := by
  simp [startFrame, h, Block.reset, initV]

/-- INIT on the reset registers changes nothing (R95). -/
theorem exec_init_of_reset {s : State} (h : s.block = Block.reset) : exec .init s = .next s := by
  rw [exec_eq, State.onBlock, blockEffect_init, h, Block.startFrame_of_ill rfl, ← h]

/-- Settles O9: INIT with ILL = 0 writes the reset values (`Block.startFrame_of_ill`), which reset has written already. -/
theorem initEqualsReset : Obligations.InitEqualsReset := by
  refine ⟨fun s hill => ?_, fun s rest hi => ⟨_, step_of_assertReset hi, exec_init_of_reset rfl⟩, exec_init_of_reset rfl⟩
  rw [exec_eq, State.onBlock, blockEffect_init, Block.startFrame_of_ill hill]
  rfl

/-- Settles O27: the reset registers meet their invariant (`Block.Inv.reset`), and `pc` is 0. -/
theorem resetMeetsInvariant : Obligations.ResetMeetsInvariant :=
  ⟨.reset, fun _ => ⟨rfl, rfl⟩, Nat.zero_le _⟩

/-- An instance that no frame owns takes a word of any frame (R44). -/
theorem Slot.mayIssue_of_unowned {slot : Slot} (h : slot.owner = none) (frame : Nat) (w : CmdWord) :
    slot.mayIssue frame w = true := by
  simp [mayIssue, h]

/-- Settles O59: an instance that is not ready accepts nothing (`Platform.issue_notReady`), as under the reset asserted
there (`Platform.assertReset_slot`); a ready one takes the word of a frame that may issue it (`Platform.issue_ready`). -/
theorem platformAcceptsOnlyWhenReady : Obligations.PlatformAcceptsOnlyWhenReady := by
  intro p k frame w slot hslot
  have hreset := Platform.assertReset_slot hslot
  refine ⟨fun hr => Platform.issue_notReady hslot (cmdReady_eq_false_of_rst hr),
    fun hf => Platform.issue_notReady hslot (cmdReady_eq_false_of_inFlight hf),
    fun hr hf howner => ?_,
    Platform.issue_notReady hreset (cmdReady_eq_false_of_rst rfl),
    ⟨_, hreset, rfl⟩, ⟨_, Platform.resetSlot_slot hslot, rfl, rfl⟩⟩
  have hready := cmdReady_of_idle hr hf
  have hmay : slot.mayIssue frame w = true := by
    rcases howner with h | h
    · exact Slot.mayIssue_of_owner h w
    · exact Slot.mayIssue_of_unowned h frame w
  exact ⟨_, _, Platform.issue_ready hslot hready hmay, Platform.set_slot hslot _, rfl, hready⟩

end Sys2Proof.Machine
end

section
/-! SUPPORT. The reason the decoder gives for each bullet of R51, and the words that the spec writes out. -/

namespace Sys2Proof

variable {w : CmdWord}

theorem decode_nopOperand (hop : opField w = 0x00#8) (himm : immField w ≠ 0#16) :
    decode w = .illegal .nopOperand := by
  simp [decode, hop, himm]

theorem decode_initOperand (hop : opField w = 0x01#8) (himm : immField w ≠ 0#16) :
    decode w = .illegal .initOperand := by
  simp [decode, hop, himm]

theorem decode_feedReserved (hop : opField w = 0x02#8) (hrsv : hiField w ≠ 0#8) :
    decode w = .illegal .feedReserved := by
  simp [decode, hop, hrsv]

/-- An op from 0x04 on is none of the four that the decoder tests for. -/
theorem decode_unusedOp (hop : 0x04 ≤ (opField w).toNat) : decode w = .illegal .unusedOp := by
  have hne (op : Byte) (h : op.toNat < 0x04) : opField w ≠ op := by
    rintro rfl
    omega
  simp only [decode, if_neg (hne 0x00#8 (by decide)), if_neg (hne 0x01#8 (by decide)), if_neg (hne 0x02#8 (by decide)),
    if_neg (hne 0x03#8 (by decide))]

/-- Settles O5: the legal words are encodings of their commands (`decode_encode`), and each illegal word meets one bullet of
R51. -/
theorem specWordsDecode : Obligations.SpecWordsDecode :=
  ⟨decode_encode .nop, decode_encode .init, decode_encode (.feed 0xA5), decode_encode (.check 0x0B 0xC4),
    decode_nopOperand (by decide) (by decide), decode_initOperand (by decide) (by decide),
    decode_feedReserved (by decide) (by decide), decode_unusedOp (by decide), decode_unusedOp (by decide)⟩

end Sys2Proof
end
